-- ==== Sys2Proof/Word.lean ====
section
/-! DEFINITION. The words of LFE (spec/00_scope.md R7; widths: R5, R6): the byte of the pixel buffer and of the
wire, the command and response word, and the 32-bit number that the opcode table gives a wire frame. -/

namespace Sys2Proof

/-- A byte is 8 bits (R7). -/
abbrev Byte := BitVec 8

/-- A command word or a response word, `CMD_W` = 64 bits (R6, R60, R66). -/
abbrev CmdWord := BitVec 64

/-- A 4-byte wire frame read as one number, its first byte in bits 31:24 (30_encoding.md R76 to R78; the rows of
space "wire" of opcode_table.json). -/
abbrev FrameWord := BitVec 32

end Sys2Proof
end

