-- ==== Sys2Proof/Config.lean ====
section
/-! DEFINITION. What an implementation fixes: the parameters of 00_scope.md R5 and R6, the types of the two open ones
(ORDER_MAP and ROT_DIR) with their default values, and the free values the spec leaves undefined (10_state.md R34). -/

namespace Sys2Proof

/-- A colour order: the byte offset, within a pixel's four bytes, of red, green and blue (10_state.md R25). -/
structure Order where
  r : BitVec 2
  g : BitVec 2
  b : BitVec 2
  deriving DecidableEq, Repr

/-- The six colour-order tags, in the order of their codes (30_encoding.md R73). -/
inductive Tag where
  | rgb | rbg | grb | gbr | brg | bgr
  deriving DecidableEq, Repr

/-- ORDER_MAP: the order each tag selects (30_encoding.md R74). -/
structure OrderMap where
  rgb : Order
  rbg : Order
  grb : Order
  gbr : Order
  brg : Order
  bgr : Order
  deriving DecidableEq, Repr

/-- ROT_DIR: which way a positive rotate moves pixels (42_rotate.md R121). -/
inductive RotDir where
  | towardLower | towardHigher
  deriving DecidableEq, Repr

/-- The open parameters that change what LFE does (92_eei_decisions.md, "Open parameters, collected"; CHUNK cannot be
observed, log 16). -/
structure Params where
  orderMap : OrderMap
  rotDir   : RotDir
  deriving DecidableEq, Repr

namespace Config

/-- `MIN_LEDS` (R5). -/
abbrev minLeds : Nat := 1
/-- `MAX_LEDS` (R5). -/
abbrev maxLeds : Nat := 1024
/-- `STRIDE`, bytes per pixel (R5). -/
abbrev stride : Nat := 4
/-- `GB_MAX` (R5). -/
abbrev gbMax : Nat := 31
/-- `START_LEN` (R5). -/
abbrev startLen : Nat := 4
/-- `RESET_LEN` (R5). -/
abbrev resetLen : Nat := 4
/-- `PAD_DIV`, LEDs per byte of end padding (R5). -/
abbrev padDiv : Nat := 16
/-- `PCT_DEFAULT` (R5). -/
abbrev pctDefault : BitVec 8 := 100
/-- `ROT_DEFAULT` (R5). -/
abbrev rotDefault : BitVec 16 := 1
/-- `INIT_HDR`, the header of a pixel nothing has set (R6, 92_eei_decisions.md D9). -/
abbrev initHdr : Byte := 0xE0
/-- `BUF_BYTES`, the physical size of the buffer (R6). -/
abbrev bufBytes : Nat := 4096

/-- The default ORDER_MAP of 30_encoding.md R74. PRESUMED: the spec marks the table "from general knowledge, not in
source" (K1). Unsafe where a claim starts from State.reset; claims about every state hold for every ORDER_MAP (log 2). -/
def defaultOrderMap : OrderMap where
  rgb := ⟨3, 2, 1⟩
  rbg := ⟨3, 1, 2⟩
  grb := ⟨2, 3, 1⟩
  gbr := ⟨2, 1, 3⟩
  brg := ⟨1, 3, 2⟩
  bgr := ⟨1, 2, 3⟩

/-- The default parameters: the table of R74 and `ROT_DIR = toward_lower` (R6; 92_eei_decisions.md D13). DESIGN CHOICE
of the spec for the direction (log 3). -/
def defaultParams : Params where
  orderMap := defaultOrderMap
  rotDir   := .towardLower

/-- A free value: NUMLEDS when R34 leaves it undefined. DESIGN CHOICE, safe: nothing constrains it (log 11). -/
opaque freeNumleds : Nat → BitVec 11

/-- A free value: which of the six legal orders ORDER holds when R34 leaves it undefined (R25: "exactly six values of
the register are legal; the value 0 is never held by any field"). DESIGN CHOICE, safe within R25 (log 11). -/
opaque freeOrderIndex : Nat → Fin 6

/-- A free value: GB when R34 leaves it undefined. DESIGN CHOICE, safe (log 11). -/
opaque freeGb : Nat → BitVec 5

/-- A free value: HASRESET when R34 leaves it undefined. DESIGN CHOICE, safe (log 11). -/
opaque freeHasreset : Nat → BitVec 1

end Config
end Sys2Proof
end

