-- ==== Sys2Proof/Syntax.lean ====
section
/-! DEFINITION. The instructions: one constructor per row of spec/opcode_table.json. Ten commands a host presents
(30_encoding.md R62) and the four frame kinds a transaction is made of (R76 to R79). Every operand has exactly the width
of its field (R61, R77), so no term of this type has an operand its encoding could not hold. -/

namespace Sys2Proof

/-- One constructor per row of the opcode table. -/
inductive Instr where
  /-- CONFIG nleds, tag, gb, hasreset, tport_ok (44_config_control.md R150). -/
  | config (nleds : BitVec 16) (tag : BitVec 8) (gb : BitVec 8) (hasreset : BitVec 1) (tportOk : BitVec 1)
  /-- SET idx, red, green, blue (41_pixel_access.md R103). -/
  | set (idx : BitVec 16) (red green blue : Byte)
  /-- SETB idx, red, green, blue, pct (41_pixel_access.md R104). -/
  | setb (idx : BitVec 16) (red green blue : Byte) (pct : BitVec 8)
  /-- SETP idx, rgb24, pct (41_pixel_access.md R105). -/
  | setp (idx : BitVec 16) (rgb24 : BitVec 24) (pct : BitVec 8)
  /-- GET idx (41_pixel_access.md R108). -/
  | get (idx : BitVec 16)
  /-- ROT pos (42_rotate.md R122). -/
  | rot (pos : BitVec 16)
  /-- SETGB val (44_config_control.md R156). -/
  | setgb (val : BitVec 8)
  /-- SHOW (43_frame_emit.md R138); the bare word is reserved in Lean. -/
  | showFrame
  /-- CLEAR (43_frame_emit.md R140). -/
  | clear
  /-- TEARDOWN (44_config_control.md R159). -/
  | teardown
  /-- START_FRAME (30_encoding.md R76). -/
  | startFrame
  /-- PIXEL_FRAME: the stored brightness q and the bytes at offsets 1, 2, 3 (30_encoding.md R77). -/
  | pixelFrame (q : BitVec 5) (x y z : Byte)
  /-- RESET_FRAME (30_encoding.md R78). -/
  | resetFrame
  /-- END_PAD_BYTE (30_encoding.md R79). -/
  | endPadByte
  deriving DecidableEq, Repr

end Sys2Proof
end

