-- ==== Sys2Proof/WellFormed.lean ====
section
/-! DEFINITION. Checks on data that can be ill-formed: a colour order, an ORDER_MAP, a LED count, and the source form
of a command, whose operands are numbers of any size (30_encoding.md R81). An `Instr` itself is well-formed by its type: its
operands have the widths of their fields, and no value of a field is illegal (R75, last sentence). -/

namespace Sys2Proof

/-- A legal ORDER: "each field in 1..3 and the three pairwise different" (10_state.md R25). -/
def Order.legal (o : Order) : Bool :=
  o.r != 0 && o.g != 0 && o.b != 0 && o.r != o.g && o.g != o.b && o.r != o.b

/-- The six orders of an ORDER_MAP, in tag order. -/
def OrderMap.toList (m : OrderMap) : List Order := [m.rgb, m.rbg, m.grb, m.gbr, m.brg, m.bgr]

/-- A legal ORDER_MAP: "the six triples are the six permutations, each used once" (30_encoding.md R74). -/
def OrderMap.legal (m : OrderMap) : Bool := m.toList.all Order.legal && decide m.toList.Nodup

/-- Legal parameters: a legal ORDER_MAP; either direction (92_eei_decisions.md, open parameters). -/
def Params.legal (p : Params) : Bool := p.orderMap.legal

/-- Every term of `Instr` is well-formed: "every value of every operand field has a defined effect" (30_encoding.md
R75), and the fields have the widths of R61 and R77 by their types. -/
def Instr.wellFormed : Instr → Bool
  | .config _ _ _ _ _ => true
  | .set _ _ _ _ => true
  | .setb _ _ _ _ _ => true
  | .setp _ _ _ => true
  | .get _ => true
  | .rot _ => true
  | .setgb _ => true
  | .showFrame => true
  | .clear => true
  | .teardown => true
  | .startFrame => true
  | .pixelFrame _ _ _ _ => true
  | .resetFrame => true
  | .endPadByte => true

/-- A command as the assembler reads it, with its operands as plain numbers in the order of 30_encoding.md R81, the
defaults of R82 already put in. -/
inductive Source where
  | config (nleds tag gb hasreset tportOk : Int)
  | set (idx red green blue : Int)
  | setb (idx red green blue pct : Int)
  | setp (idx rgb24 pct : Int)
  | get (idx : Int)
  | rot (pos : Int)
  | setgb (val : Int)
  | showFrame
  | clear
  | teardown
  deriving DecidableEq, Repr

/-- The number fits an unsigned field of w bits (R7). -/
def fitsUnsigned (w : Nat) (v : Int) : Bool := decide (0 ≤ v) && decide (v < 2 ^ w)

/-- The number fits a two's complement field of 16 bits, "range -32768 .. 32767" (30_encoding.md R71). -/
def fitsSigned16 (v : Int) : Bool := decide (-32768 ≤ v) && decide (v ≤ 32767)

/-- Every operand fits its field (30_encoding.md R61). -/
def Source.wellFormed : Source → Bool
  | .config nleds tag gb hasreset tportOk =>
    fitsUnsigned 16 nleds && fitsUnsigned 8 tag && fitsUnsigned 8 gb && fitsUnsigned 1 hasreset && fitsUnsigned 1 tportOk
  | .set idx red green blue => fitsSigned16 idx && fitsUnsigned 8 red && fitsUnsigned 8 green && fitsUnsigned 8 blue
  | .setb idx red green blue pct =>
    fitsSigned16 idx && fitsUnsigned 8 red && fitsUnsigned 8 green && fitsUnsigned 8 blue && fitsUnsigned 8 pct
  | .setp idx rgb24 pct => fitsSigned16 idx && fitsUnsigned 24 rgb24 && fitsUnsigned 8 pct
  | .get idx => fitsSigned16 idx
  | .rot pos => fitsSigned16 pos
  | .setgb val => fitsUnsigned 8 val
  | .showFrame => true
  | .clear => true
  | .teardown => true

/-- The instruction of a source command, each number put into its field. -/
def Source.toInstr : Source → Instr
  | .config nleds tag gb hasreset tportOk =>
    .config (BitVec.ofInt 16 nleds) (BitVec.ofInt 8 tag) (BitVec.ofInt 8 gb) (BitVec.ofInt 1 hasreset) (BitVec.ofInt 1 tportOk)
  | .set idx red green blue =>
    .set (BitVec.ofInt 16 idx) (BitVec.ofInt 8 red) (BitVec.ofInt 8 green) (BitVec.ofInt 8 blue)
  | .setb idx red green blue pct =>
    .setb (BitVec.ofInt 16 idx) (BitVec.ofInt 8 red) (BitVec.ofInt 8 green) (BitVec.ofInt 8 blue) (BitVec.ofInt 8 pct)
  | .setp idx rgb24 pct => .setp (BitVec.ofInt 16 idx) (BitVec.ofInt 24 rgb24) (BitVec.ofInt 8 pct)
  | .get idx => .get (BitVec.ofInt 16 idx)
  | .rot pos => .rot (BitVec.ofInt 16 pos)
  | .setgb val => .setgb (BitVec.ofInt 8 val)
  | .showFrame => .showFrame
  | .clear => .clear
  | .teardown => .teardown

end Sys2Proof
end

