-- ==== Sys2Proof/Decode.lean ====
section
/-! DEFINITION. Decoding and encoding (30_encoding.md R60 to R79, R83). A command is one 64-bit word; its legality depends
on its bits alone (60_exceptions.md R177). A wire frame is a 32-bit number or, for end padding, a byte. Both decoders are
total and say by name why they reject a word. -/

namespace Sys2Proof

/-- A word as it stands at one of the block's ports: a command word (R60), a 4-byte wire frame, or a byte of end padding
(R76 to R79). -/
inductive PortWord where
  | command (w : CmdWord)
  | frame (w : FrameWord)
  | pad (w : Byte)
  deriving DecidableEq, Repr

/-- The commands a word is: one at the command port, none at the wire port (R60, R204). -/
def commandsOf : PortWord → List CmdWord
  | .command w => [w]
  | .frame _ => []
  | .pad _ => []

/-- Why a word is no instruction: for a command, R75 (a) or (b); for a wire word, none of the patterns of R76 to R79. -/
inductive DecodeError where
  | reservedOp
  | reservedBits
  | noSuchFrame
  deriving DecidableEq, Repr

/-- The bit slice `v[hi:lo]` (00_scope.md R7), from its low bit and its width. -/
def field {w : Nat} (v : BitVec w) (lo width : Nat) : BitVec width := v.extractLsb' lo width

/-- The operation code, bits 63:60 (R60). -/
def opOf (w : CmdWord) : BitVec 4 := field w 60 4

/-- The reserved bits of each operation's format (R75 b), as a mask; `none` for a reserved operation code (R75 a). -/
def reservedMask (op : BitVec 4) : Option CmdWord :=
  match op.toNat with
  | 1 => some 0x0000000FFFF003FF
  | 2 => some 0x00000000000FFFFF
  | 3 => some 0x0000000000000FFF
  | 4 => some 0x0000000000000FFF
  | 5 => some 0x00000FFFFFFFFFFF
  | 6 => some 0x00000FFFFFFFFFFF
  | 7 => some 0x0FFFFFFFFFF00FFF
  | 8 => some 0x0FFFFFFFFFFFFFFF
  | 9 => some 0x0FFFFFFFFFFFFFFF
  | 10 => some 0x0FFFFFFFFFFFFFFF
  | _ => none

/-- The operands of a word whose operation code and reserved bits have been checked (R61 to R69). -/
def operandsOf (w : CmdWord) : Option Instr :=
  match (opOf w).toNat with
  | 1 => some (.config (field w 44 16) (field w 36 8) (field w 12 8) (field w 11 1) (field w 10 1))
  | 2 => some (.set (field w 44 16) (field w 36 8) (field w 28 8) (field w 20 8))
  | 3 => some (.setb (field w 44 16) (field w 36 8) (field w 28 8) (field w 20 8) (field w 12 8))
  | 4 => some (.setp (field w 44 16) (field w 20 24) (field w 12 8))
  | 5 => some (.get (field w 44 16))
  | 6 => some (.rot (field w 44 16))
  | 7 => some (.setgb (field w 12 8))
  | 8 => some .showFrame
  | 9 => some .clear
  | 10 => some .teardown
  | _ => none

/-- A command word's instruction, or why the word is illegal (R60, R75). -/
def decodeCommand (w : CmdWord) : Except DecodeError Instr :=
  match reservedMask (opOf w), operandsOf w with
  | some m, some i => if w &&& m = 0 then .ok i else .error .reservedBits
  | _, _ => .error .reservedOp

/-- A 4-byte wire frame's instruction. START_FRAME and RESET_FRAME have the same bits and "only its place in the
transaction tells them apart" (R78): `first` says that nothing of the transaction stands before this frame (log 9). -/
def decodeFrame (first : Bool) (w : FrameWord) : Except DecodeError Instr :=
  if w = 0 then .ok (if first then .startFrame else .resetFrame)
  else if field w 29 3 = 7 then .ok (.pixelFrame (field w 24 5) (field w 16 8) (field w 8 8) (field w 0 8))
  else .error .noSuchFrame

/-- A byte of end padding (R79). -/
def decodePad (w : Byte) : Except DecodeError Instr :=
  if w = 0 then .ok .endPadByte else .error .noSuchFrame

/-- The instruction of a word at its port. -/
def decode (first : Bool) : PortWord → Except DecodeError Instr
  | .command w => decodeCommand w
  | .frame w => decodeFrame first w
  | .pad w => decodePad w

/-- The word of an instruction (R61 to R69 for commands, R76 to R79 for frames), each field written in its place from
the most significant bit down, with zeros in the reserved bits. -/
def encode : Instr → PortWord
  | .config nleds tag gb hasreset tportOk =>
    .command (1#4 ++ nleds ++ tag ++ 0#16 ++ gb ++ hasreset ++ tportOk ++ 0#10)
  | .set idx red green blue => .command (2#4 ++ idx ++ red ++ green ++ blue ++ 0#20)
  | .setb idx red green blue pct => .command (3#4 ++ idx ++ red ++ green ++ blue ++ pct ++ 0#12)
  | .setp idx rgb24 pct => .command (4#4 ++ idx ++ rgb24 ++ pct ++ 0#12)
  | .get idx => .command (5#4 ++ idx ++ 0#44)
  | .rot pos => .command (6#4 ++ pos ++ 0#44)
  | .setgb val => .command (7#4 ++ 0#40 ++ val ++ 0#12)
  | .showFrame => .command (8#4 ++ 0#60)
  | .clear => .command (9#4 ++ 0#60)
  | .teardown => .command (10#4 ++ 0#60)
  | .startFrame => .frame 0
  | .pixelFrame q x y z => .frame (7#3 ++ q ++ x ++ y ++ z)
  | .resetFrame => .frame 0
  | .endPadByte => .pad 0

/-- Whether an instruction stands at the beginning of a transaction, which the bits alone do not say (R76, R78). -/
def standsFirst : Instr → Bool
  | .startFrame => true
  | _ => false

/-- The bytes of a 32-bit frame, the first on the wire first (R42 a, R76 to R78). -/
def frameBytes (w : FrameWord) : List Byte := [field w 24 8, field w 16 8, field w 8 8, field w 0 8]

/-- The bytes a word puts on the wire: none for a command (R42, R76 to R79). -/
def wireBytes : PortWord → List Byte
  | .command _ => []
  | .frame w => frameBytes w
  | .pad w => [w]

/-- The bits of a byte in wire order: "of each byte, bit 7 is sent first and bit 0 last" (20_memory.md R42 b). -/
def byteBits (b : Byte) : List Bool :=
  [b.getLsbD 7, b.getLsbD 6, b.getLsbD 5, b.getLsbD 4, b.getLsbD 3, b.getLsbD 2, b.getLsbD 1, b.getLsbD 0]

/-- A byte list as the bit string on the wire, the first byte first (20_memory.md R42). -/
def wireBits : List Byte → List Bool
  | [] => []
  | b :: bs => byteBits b ++ wireBits bs

/-- The port word with the bits w, by the width the opcode table gives the row: 64 for a command, 32 for a frame, 8
for a byte of padding; no row has another width. -/
def portWordOf (nbits w : Nat) : Option PortWord :=
  match nbits with
  | 64 => some (.command (BitVec.ofNat 64 w))
  | 32 => some (.frame (BitVec.ofNat 32 w))
  | 8 => some (.pad (BitVec.ofNat 8 w))
  | _ => none

/-- The decoder on a row of the opcode table. A wire frame is read as the first of its transaction, so 32 zero bits are
START_FRAME; RESET_FRAME has the same bits (R78, log 9). -/
def decodeTableWord (nbits w : Nat) : Option Instr :=
  match portWordOf nbits w with
  | none => none
  | some p =>
    match decode true p with
    | .ok i => some i
    | .error _ => none

end Sys2Proof
end

