-- ==== Sys2Proof/Machine/State.lean ====
section
/-! DEFINITION. The state of LFE as plain data (10_state.md; 00_scope.md R10; 70_reset_and_hazards.md R204), why a step
can stop, and the state right after reset (R190, R34). -/

namespace Sys2Proof.Machine

/-- MODE (R23). -/
inductive Mode where
  | unconfigured | ready
  deriving DecidableEq, Repr

/-- What the transport collaborator answers to `T_acquire` and `T_write` (R9, R136, R152). -/
inductive TResult where
  | ok | err
  deriving DecidableEq, Repr

/-- An entry of the transport history TH (R10). -/
inductive Call where
  | acquire (r : TResult)
  | write (f : List Byte) (r : TResult)
  | release
  deriving DecidableEq, Repr

/-- What the outside does at the command interface (R204): it presents a word, or asserts reset. A word at the wire
port stands for a frame put out by the frame encoder; a host has only command words (log 8). -/
inductive Event where
  | word (p : PortWord)
  | reset
  deriving DecidableEq, Repr

/-- An operation that has called the transport and has no answer yet (R136, R197): CONFIG with the operands its
completion needs, or SHOW, CLEAR or TEARDOWN, whose frame stands in `Progress.frame`. -/
inductive Waiting where
  | acquire (nleds : BitVec 16) (tag : BitVec 8) (gb : BitVec 8) (hasreset : BitVec 1)
  | showFrame
  | clear
  | teardown
  deriving DecidableEq, Repr

/-- The pixel buffer: pairs of a byte offset and the byte there (R28), offsets strictly rising. An offset that is not
listed holds no value: the spec leaves the bytes undefined (R34; U7: "hold them as unwritten"), and reading one
faults. DESIGN CHOICE, safe (log 10). -/
abbrev Memory := List Host.Cell

/-- The canonical form of the buffer: offsets strictly rising. Nothing equals "no value", so no listed byte is one too
many. -/
abbrev Memory.wf (m : Memory) : Prop := (m.map Prod.fst).Pairwise (· < ·)

/-- Why the machine stops. Neither fault arises in a run from reset (20_memory.md R43, 70_reset_and_hazards.md R192). -/
inductive Fault where
  /-- A read of a buffer byte that holds no value. Raised by GET, ROT and SHOW through `State.readByte` and
  `State.memRead`, only in a state no run reaches. Safe: the spec gives such a byte no value (R34, U7). -/
  | unwrittenByte (a : Nat)
  /-- An access outside `0 .. 4*NUMLEDS - 1` (R9, R29). Raised by `State.readByte`, `State.memRead` and
  `State.memWrite`; no instruction forms such an address (R43). Safe. -/
  | outsideBuffer (a : Nat)
  deriving DecidableEq, Repr

/-- Why a word has no meaning. -/
inductive Refusal where
  /-- An instruction that has no meaning in this model yet. Raised by no arm now. Safe. -/
  | notModelled (mnemonic : String)
  /-- A word at the wire port that is none of the four frame kinds of R76 to R79. Raised by the step's fetch. The spec
  gives such a word no meaning. Safe (log 17). -/
  | notAWireFrame
  deriving DecidableEq, Repr

/-- LFE's own state record: "five control registers and one byte memory, nothing else" (10_state.md, first lines; R23 to
R28). The parameters and TH are "not fields of its state record" (R32). -/
structure Lfe where
  /-- MODE (R23). -/
  mode     : Mode
  /-- NUMLEDS (R24). -/
  numleds  : BitVec 11
  /-- ORDER (R25). -/
  order    : Order
  /-- GB (R26). -/
  gb       : BitVec 5
  /-- HASRESET (R27). -/
  hasreset : BitVec 1
  /-- The pixel buffer (R28). -/
  buf      : Memory
  deriving DecidableEq, Repr

/-- What an operation in progress holds; nothing of it is left when the operation ends (R33). -/
structure Progress where
  /-- The operation in progress that waits for the transport, if any (R136, R197). -/
  waiting : Option Waiting
  /-- F, the frame being put together or being written (R134, R138). -/
  frame   : List Byte
  deriving DecidableEq, Repr

/-- What the two other agents have still to do (R2). -/
structure Outside where
  /-- The events the host has still to bring, oldest first (R204; log 5). -/
  inbox   : List Event
  /-- The answers the transport has still to give, in call order (R136, R152, U12; log 6). -/
  answers : List TResult
  deriving DecidableEq, Repr

/-- The run so far as it is seen from outside (R10, R205). No instruction reads it, and it is not state of LFE (R32;
log 4). -/
structure Observed where
  /-- The commands taken since reset, oldest first: "A run is a finite or infinite sequence of commands from reset"
  (R205; log 22). -/
  commands  : List CmdWord
  /-- The response words given, oldest first (R10 a, R66). -/
  responses : List CmdWord
  /-- The transport history TH, oldest first (R10 b). -/
  th        : List Call
  deriving DecidableEq, Repr

/-- What one step works on, since the host's interface gives it one argument: the state record of LFE, the operation in
progress, and beside them what R32 keeps out of that record, the two outside agents, the observation and the parameters. -/
structure State extends Lfe, Progress, Outside, Observed where
  /-- How many times registers have become undefined: it picks the free values (log 11). The model's own. -/
  free   : Nat
  /-- The parameters ORDER_MAP and ROT_DIR (R6, R32); no step changes them (log 2, log 3). -/
  params : Params
  deriving DecidableEq, Repr

/-- The machine right after reset (R190, R34) under parameters p, so that a claim can be made for every ORDER_MAP (D11):
UNCONFIGURED, no byte of the buffer listed, no command in progress, TH empty; nothing presented, nothing answered. NUMLEDS,
ORDER, GB and HASRESET have no reset value in the spec: DESIGN CHOICE, unsafe (log 1). -/
def State.resetUnder (p : Params) : State where
  mode      := .unconfigured
  numleds   := 0
  order     := ⟨1, 2, 3⟩
  gb        := 0
  hasreset  := 0
  buf       := []
  waiting   := none
  frame     := []
  inbox     := []
  answers   := []
  commands  := []
  responses := []
  th        := []
  free      := 0
  params    := p

/-- The reset state handed to the host: under the spec's default parameters (R74, R6), one choice of the open ORDER_MAP
(log 2, log 3). -/
def State.reset : State := State.resetUnder Config.defaultParams

end Sys2Proof.Machine
end

