-- ==== Sys2Proof/Machine/Flags.lean ====
section
/-! DEFINITION. LFE has no flags, condition codes or sticky error bits (10_state.md R22): what an operation reports is the
status of its response and, for GET, the data fields. The status codes (60_exceptions.md R171) and the response word
(30_encoding.md R66). -/

namespace Sys2Proof.Machine

/-- The statuses there are (R171). -/
inductive Status where
  | ok | cfgLedcount | cfgBuspin | cfgBrightness | transport | notready | already | illegal | divzero
  deriving DecidableEq, Repr

/-- The code of a status (R171); 9 to 15 are never produced. -/
def Status.code : Status → BitVec 4
  | .ok => 0
  | .cfgLedcount => 1
  | .cfgBuspin => 2
  | .cfgBrightness => 3
  | .transport => 4
  | .notready => 5
  | .already => 6
  | .illegal => 7
  | .divzero => 8

/-- The response word: status in 63:60, valid in 59, red 43:36, green 35:28, blue 27:20, pct 19:8, zeros elsewhere (R66). -/
def responseWord (st : Status) (valid : BitVec 1) (red green blue : Byte) (pct : BitVec 12) : CmdWord :=
  st.code ++ valid ++ 0#15 ++ red ++ green ++ blue ++ pct ++ 0#8

/-- A response with the status alone: "`st` in the top four bits and zeros below" (R66). -/
def statusWord (st : Status) : CmdWord := responseWord st 0 0 0 0 0

/-- The status of an operation whose transport call was answered (R138, R150, R159). -/
def TResult.status : TResult → Status
  | .ok => .ok
  | .err => .transport

/-- MODE as the spec numbers it (R23). -/
def Mode.code : Mode → BitVec 1
  | .unconfigured => 0
  | .ready => 1

end Sys2Proof.Machine
end

