-- ==== Sys2Proof/Machine/Operands.lean ====
section
/-! DEFINITION. What is computed from operands and registers before anything is written: signed counts and indices
(30_encoding.md R71), the packed colour (R70), tags and orders (R73, R74), the header byte (R72), the quintet and the
percentage (41_pixel_access.md R101, R107), the rotate amount (42_rotate.md R120). -/

namespace Sys2Proof.Machine

/-- `sint(v)`, two's complement of 16 bits (00_scope.md R7). -/
def sint (v : BitVec 16) : Int := v.toInt

/-- `fmod(p, n)`: "`p - n * floor(p / n)`, always in `0 .. n-1`" for n > 0 (00_scope.md R8). -/
def fmod (p : Int) (n : Nat) : Nat := (p.emod n).toNat

/-- The pixel an index names, or none when "`0 <= sint(idx) and sint(idx) < NUMLEDS`" fails (R100). -/
def pixelIndex (idx : BitVec 16) (numleds : BitVec 11) : Option Nat :=
  if 0 ≤ sint idx ∧ sint idx < numleds.toNat then some (sint idx).toNat else none

/-- Red of a packed colour, `rgb24[23:16]` (R70). -/
def redOf (rgb24 : BitVec 24) : Byte := field rgb24 16 8
/-- Green of a packed colour, `rgb24[15:8]` (R70). -/
def greenOf (rgb24 : BitVec 24) : Byte := field rgb24 8 8
/-- Blue of a packed colour, `rgb24[7:0]` (R70). -/
def blueOf (rgb24 : BitVec 24) : Byte := field rgb24 0 8

/-- The tag of a code; codes 6 to 255 are unrecognised and "treated exactly as tag 0" (R73). -/
def tagOfCode (t : BitVec 8) : Tag :=
  match t.toNat with
  | 0 => .rgb
  | 1 => .rbg
  | 2 => .grb
  | 3 => .gbr
  | 4 => .brg
  | 5 => .bgr
  | _ => .rgb

/-- The order an ORDER_MAP gives a tag (R74). -/
def orderOfTag (m : OrderMap) : Tag → Order
  | .rgb => m.rgb
  | .rbg => m.rbg
  | .grb => m.grb
  | .gbr => m.gbr
  | .brg => m.brg
  | .bgr => m.bgr

/-- `ORDER_MAP(effective_tag(tag))` (R154). -/
def orderOfCode (m : OrderMap) (tag : BitVec 8) : Order := orderOfTag m (tagOfCode tag)

/-- The six legal orders (R25), for the free value ORDER takes when it is undefined. -/
def legalOrder (k : Fin 6) : Order :=
  match k.val with
  | 0 => ⟨1, 2, 3⟩
  | 1 => ⟨1, 3, 2⟩
  | 2 => ⟨2, 1, 3⟩
  | 3 => ⟨2, 3, 1⟩
  | 4 => ⟨3, 1, 2⟩
  | _ => ⟨3, 2, 1⟩

/-- The header byte `0b111 : q` (R72). -/
def headerOf (q : BitVec 5) : Byte := 7#3 ++ q

/-- The stored brightness of a header, `hdr[4:0]` (R72). -/
def brightnessOf (hdr : Byte) : BitVec 5 := field hdr 0 5

/-- `quintet(pct, GB) = ((pct * GB + 99) div 100) & 0x1F` (R101): the mask wraps, it does not saturate (C5). -/
def quintet (pct : BitVec 8) (gb : BitVec 5) : BitVec 5 :=
  BitVec.ofNat 5 ((pct.toNat * gb.toNat + 99) / 100)

/-- `recon(s, GB) = (s * 100) div GB` for `GB >= 1`, in the 12 bits of the response (R107). -/
def recon (q : BitVec 5) (gb : BitVec 5) : BitVec 12 := BitVec.ofNat 12 (q.toNat * 100 / gb.toNat)

/-- The four bytes of a pixel (R102): the header at offset 0 and each colour at the offset its order entry names. -/
def pixelBytes (o : Order) (red green blue : Byte) (q : BitVec 5) : List Byte :=
  ((([headerOf q, 0, 0, 0].set o.r.toNat red).set o.g.toNat green).set o.b.toNat blue)

/-- n pixels of the same four bytes, one after the other. -/
def repeatPixel (n : Nat) (px : List Byte) : List Byte := (List.replicate n px).flatten

/-- `m = fmod(sint(pos), NUMLEDS)` (R120). -/
def rotateAmount (pos : BitVec 16) (numleds : BitVec 11) : Nat := fmod (sint pos) numleds.toNat

/-- A circular shift of a byte list by k places toward its beginning: `new[j] = old[(j + k) mod len]` (R121). -/
def shiftLower (k : Nat) (l : List Byte) : List Byte := l.drop k ++ l.take k

/-- A circular shift by k places, k at most the length, in the direction ROT_DIR gives (R121): its other value is
`new[(j + k) mod len] = old[j]`, a shift toward the beginning by len - k. -/
def shiftBy (d : RotDir) (k : Nat) (l : List Byte) : List Byte :=
  match d with
  | .towardLower => shiftLower k l
  | .towardHigher => shiftLower (l.length - k) l

end Sys2Proof.Machine
end

