-- ==== Sys2Proof/Machine/Ops.lean ====
section
/-! DEFINITION. The named operations the meanings are written with: the buffer (00_scope.md R9), the response (R66, R176),
the pixel store (41_pixel_access.md R102), the frame (43_frame_emit.md R130 to R134), the transport calls (R136,
44_config_control.md R152, R160) and what their answers complete, and what reset and TEARDOWN leave undefined (10_state.md
R34). -/

namespace Sys2Proof.Machine

/-! ## The buffer as a list of cells -/

/-- The byte at an offset, or none where nothing has been written (log 10). -/
def Memory.read : Memory → Nat → Option Byte
  | [], _ => none
  | c :: m, a => if c.1 = a then some c.2 else Memory.read m a

/-- The k bytes from an offset, or the first offset among them that holds none. -/
def Memory.readRange (m : Memory) : Nat → Nat → Except Nat (List Byte)
  | _, 0 => .ok []
  | a, k + 1 =>
    match Memory.read m a with
    | none => .error a
    | some v =>
      match Memory.readRange m (a + 1) k with
      | .error e => .error e
      | .ok vs => .ok (v :: vs)

/-- The cells of a byte list laid out from an offset. -/
def Memory.ofBytes : Nat → List Byte → Memory
  | _, [] => []
  | a, v :: vs => (a, v) :: Memory.ofBytes (a + 1) vs

/-- The buffer with a byte list written from an offset: the cells below, the new cells, the cells above. -/
def Memory.write (m : Memory) (a : Nat) (bs : List Byte) : Memory :=
  m.filter (fun c => decide (c.1 < a)) ++ Memory.ofBytes a bs ++ m.filter (fun c => decide (a + bs.length ≤ c.1))

/-! ## The buffer of a state -/

/-- The number of bytes the buffer has, `4 * NUMLEDS` (R28). -/
def State.bufLen (s : State) : Nat := Config.stride * s.numleds.toNat

/-- `buf[a]` (R9). -/
def State.readByte (s : State) (a : Nat) : Except Fault Byte :=
  if a < s.bufLen then
    match Memory.read s.buf a with
    | some v => .ok v
    | none => .error (.unwrittenByte a)
  else .error (.outsideBuffer a)

/-- `MemRead(a, n)`, "defined only for `0 <= a` and `a + n <= 4 * NUMLEDS`" (R9). -/
def State.memRead (s : State) (a n : Nat) : Except Fault (List Byte) :=
  if a + n ≤ s.bufLen then
    match Memory.readRange s.buf a n with
    | .ok bs => .ok bs
    | .error e => .error (.unwrittenByte e)
  else .error (.outsideBuffer a)

/-- `MemWrite(a, n, v)` for the list v of n bytes, with the domain of R9. -/
def State.memWrite (s : State) (a : Nat) (bs : List Byte) : Except Fault State :=
  if a + bs.length ≤ s.bufLen then .ok { s with buf := Memory.write s.buf a bs }
  else .error (.outsideBuffer a)

/-! ## Responding, which is also how an error is taken -/

/-- A word to the host as the response to the command (R66). -/
def State.give (s : State) (w : CmdWord) : State := { s with responses := s.responses ++ [w] }

/-- `respond(st)`: the status alone (R9, R66). -/
def State.respond (s : State) (st : Status) : State := s.give (statusWord st)

/-- TAKING AN ERROR: `raise <Error>` is "`respond(<code of Error>)` with no further state change" (R9). "There is no
trap entry: no vector table, no handler address, no saved state, no change of mode" and "no return instruction": LFE is
ready for the next command as soon as it has responded (60_exceptions.md R176). -/
def raise (st : Status) (s : State) : Host.Outcome State Fault Refusal := .next (s.respond st)

/-- The mode check of every command but CONFIG and TEARDOWN: `NOTREADY` in UNCONFIGURED, else the operation (R174, R178). -/
def whenReady (s : State) (k : State → Host.Outcome State Fault Refusal) : Host.Outcome State Fault Refusal :=
  match s.mode with
  | .unconfigured => raise .notready s
  | .ready => k s

/-! ## Pixels -/

/-- The offset of pixel i, `4*i` (R28, R40). -/
def pixelAddr (i : Nat) : Nat := Config.stride * i

/-- `store_pixel(i, r, g, b, q)`: all four bytes of pixel i, in one MemWrite (R102). -/
def State.storePixel (s : State) (i : Nat) (red green blue : Byte) (q : BitVec 5) : Except Fault State :=
  s.memWrite (pixelAddr i) (pixelBytes s.order red green blue q)

/-- The write instructions' common effect (R104): out of range nothing but `OK` (R100), else the pixel stored with the
quintet of the percentage, and `OK`. -/
def setPixel (idx : BitVec 16) (red green blue : Byte) (pct : BitVec 8) (s : State) : Host.Outcome State Fault Refusal :=
  match pixelIndex idx s.numleds with
  | none => raise .ok s
  | some i =>
    match s.storePixel i red green blue (quintet pct s.gb) with
    | .error f => .fault f
    | .ok t => .next (t.respond .ok)

/-- A pixel as it is read back (R30). -/
structure Pixel where
  hdr   : Byte
  red   : Byte
  green : Byte
  blue  : Byte
  deriving DecidableEq, Repr

/-- The four bytes of pixel i, the colours taken from the offsets ORDER names (R30, R108). -/
def State.loadPixel (s : State) (i : Nat) : Except Fault Pixel :=
  match s.readByte (pixelAddr i), s.readByte (pixelAddr i + s.order.r.toNat), s.readByte (pixelAddr i + s.order.g.toNat),
    s.readByte (pixelAddr i + s.order.b.toNat) with
  | .ok h, .ok r, .ok g, .ok b => .ok ⟨h, r, g, b⟩
  | .error f, _, _, _ => .error f
  | _, .error f, _, _ => .error f
  | _, _, .error f, _ => .error f
  | _, _, _, .error f => .error f

/-- `blank()`: `store_pixel(i, 0, 0, 0, quintet(100, GB))` for every pixel (R139), written as one MemWrite of the whole
buffer. -/
def State.blank (s : State) : Except Fault State :=
  s.memWrite 0 (repeatPixel s.numleds.toNat (pixelBytes s.order 0 0 0 (quintet Config.pctDefault s.gb)))

/-! ## The frame -/

/-- `start_frame()` (R130), the bytes of START_FRAME. -/
def startBytes : List Byte := wireBytes (encode .startFrame)

/-- `reset_frame()`: the bytes of RESET_FRAME when `HASRESET = 1`, nothing otherwise (R131). -/
def State.resetBytes (s : State) : List Byte := if s.hasreset = 1 then wireBytes (encode .resetFrame) else []

/-- The number of bytes of end padding, `ceil(NUMLEDS / 16)` (R79, R133). -/
def State.padLen (s : State) : Nat := (s.numleds.toNat + (Config.padDiv - 1)) / Config.padDiv

/-- `end_padding()` (R133): that many END_PAD_BYTE. -/
def State.padBytes (s : State) : List Byte := (List.replicate s.padLen (wireBytes (encode .endPadByte))).flatten

/-- `frame()` (R134): start frame, every pixel frame, reset frame, end padding. The pixel frames are "the whole buffer in
offset order: `MemRead(0, 4 * NUMLEDS)`". -/
def State.buildFrame (s : State) : Except Fault (List Byte) :=
  match s.memRead 0 s.bufLen with
  | .error f => .error f
  | .ok px => .ok (startBytes ++ px ++ s.resetBytes ++ s.padBytes)

/-- A transaction begins: F is the start frame alone, "the first thing in every transaction" (R76; log 8). -/
def State.beginFrame (s : State) : State := { s with frame := startBytes }

/-- More bytes at the end of F (R134). -/
def State.putFrame (s : State) (bs : List Byte) : State := { s with frame := s.frame ++ bs }

/-! ## The transport -/

/-- An entry at the end of TH (R10, R50). -/
def State.logCall (s : State) (c : Call) : State := { s with th := s.th ++ [c] }

/-- The T_write of F has been answered: its entry in TH; F is done with (R136). -/
def State.endWrite (s : State) (r : TResult) : State := { s.logCall (.write s.frame r) with frame := [] }

/-- The registers and the buffer become undefined (R34, U7): free values for the registers, no value for any byte
(log 11). -/
def State.undefine (s : State) : State :=
  { s with
    mode     := .unconfigured
    numleds  := Config.freeNumleds s.free
    order    := legalOrder (Config.freeOrderIndex s.free)
    gb       := Config.freeGb s.free
    hasreset := Config.freeHasreset s.free
    buf      := []
    free     := s.free + 1 }

/-- The reset input (R190, R191): UNCONFIGURED, all else of the block undefined, no command in progress, TH empty, no
transport call; a new run begins (R205). What the outside has still to bring stays (log 12). -/
def State.assertReset (s : State) : State :=
  { s.undefine with waiting := none, frame := [], commands := [], responses := [], th := [] }

/-- Construction, once the transport is acquired (R150, R153, R154): the four registers, every pixel `E0 00 00 00`, READY. -/
def State.construct (s : State) (nleds : BitVec 16) (tag : BitVec 8) (gb : BitVec 8) (hasreset : BitVec 1) : State :=
  { s with
    mode     := .ready
    numleds  := field nleds 0 11
    order    := orderOfCode s.params.orderMap tag
    gb       := field gb 0 5
    hasreset := hasreset
    buf      := Memory.ofBytes 0 (repeatPixel nleds.toNat [Config.initHdr, 0, 0, 0]) }

/-- What an operation does once its transport call is answered r: the rest of the pseudocode of R150, R138, R140, R159. -/
def State.complete (s : State) (w : Waiting) (r : TResult) : State :=
  match w with
  | .acquire nleds tag gb hasreset =>
    match r with
    | .err => (s.logCall (.acquire .err)).respond .transport
    | .ok => ((s.logCall (.acquire .ok)).construct nleds tag gb hasreset).respond .ok
  | .showFrame => (s.endWrite r).respond r.status
  | .clear => (s.endWrite r).respond r.status
  | .teardown => (((s.endWrite r).logCall .release).undefine).respond r.status

/-- The operation calls the transport: with the next answer it completes; while there is none it waits "without limit"
(R136, R197; log 6, log 7). -/
def State.callTransport (s : State) (w : Waiting) : State :=
  match s.answers with
  | [] => { s with waiting := some w }
  | r :: rest => State.complete { s with answers := rest, waiting := none } w r

/-- `F <- frame(); r <- T_write(F)` and what follows in the operation (R138, R140, R159). -/
def State.flush (s : State) (w : Waiting) : Host.Outcome State Fault Refusal :=
  match s.buildFrame with
  | .error f => .fault f
  | .ok f => .next (State.callTransport { s with frame := f } w)

end Sys2Proof.Machine
end

