-- ==== Sys2Proof/Machine/Control.lean ====
section
/-! DEFINITION. Construction, global brightness and teardown: CONFIG, SETGB, TEARDOWN (44_config_control.md R150, R156,
R159). -/

namespace Sys2Proof.Machine

/-- The first of CONFIG's own errors that holds, in the order of R151 and R174 (3). -/
def configError (nleds : BitVec 16) (gb : BitVec 8) (tportOk : BitVec 1) : Option Status :=
  if nleds.toNat < Config.minLeds ∨ Config.maxLeds < nleds.toNat then some .cfgLedcount
  else if tportOk = 0 then some .cfgBuspin
  else if Config.gbMax < gb.toNat then some .cfgBrightness
  else none

/-- CONFIG (R150): ALREADY in READY; the validation, before any transport call (R151); then T_acquire (R152) and, once
it is answered, construction. -/
def execConfig (nleds : BitVec 16) (tag : BitVec 8) (gb : BitVec 8) (hasreset : BitVec 1) (tportOk : BitVec 1) (s : State) :
    Host.Outcome State Fault Refusal :=
  match s.mode with
  | .ready => raise .already s
  | .unconfigured =>
    match configError nleds gb tportOk with
    | some e => raise e s
    | none => .next (s.callTransport (.acquire nleds tag gb hasreset))

/-- SETGB (R156): CFG_BRIGHTNESS above 31, GB unchanged (R157); else GB. -/
def execSetgb (val : BitVec 8) (s : State) : Host.Outcome State Fault Refusal :=
  whenReady s fun s =>
    if Config.gbMax < val.toNat then raise .cfgBrightness s
    else .next (State.respond { s with gb := field val 0 5 } .ok)

/-- TEARDOWN (R159): a no-op with `OK` in UNCONFIGURED (R161); else blank, flush, and once the write is answered release,
UNCONFIGURED, everything undefined. -/
def execTeardown (s : State) : Host.Outcome State Fault Refusal :=
  match s.mode with
  | .unconfigured => raise .ok s
  | .ready =>
    match s.blank with
    | .error f => .fault f
    | .ok t => t.flush .teardown

end Sys2Proof.Machine
end

