-- ==== Sys2Proof/Machine/Emit.lean ====
section
/-! DEFINITION. Building and sending the frame: SHOW and CLEAR (43_frame_emit.md R138, R140), and the four frame kinds a
transaction is made of, each on its own (30_encoding.md R76 to R79; log 8). -/

namespace Sys2Proof.Machine

/-- SHOW (R138): the frame, to one transport write. No register and no byte of the buffer changes. -/
def execShowFrame (s : State) : Host.Outcome State Fault Refusal :=
  whenReady s fun s => s.flush .showFrame

/-- CLEAR (R140): every pixel black (R139), then as SHOW; the buffer stays blanked when the write fails. -/
def execClear (s : State) : Host.Outcome State Fault Refusal :=
  whenReady s fun s =>
    match s.blank with
    | .error f => .fault f
    | .ok t => t.flush .clear

/-- START_FRAME (R76): a transaction begins with its four zero bytes. -/
def execStartFrame (s : State) : Host.Outcome State Fault Refusal := .next s.beginFrame

/-- PIXEL_FRAME (R77): the header with the stored brightness q, then the bytes at offsets 1, 2, 3. -/
def execPixelFrame (q : BitVec 5) (x y z : Byte) (s : State) : Host.Outcome State Fault Refusal :=
  .next (s.putFrame (wireBytes (encode (.pixelFrame q x y z))))

/-- RESET_FRAME (R78): its four zero bytes. Whether a transaction has one, `HASRESET` says where the frame is built (R131). -/
def execResetFrame (s : State) : Host.Outcome State Fault Refusal :=
  .next (s.putFrame (wireBytes (encode .resetFrame)))

/-- END_PAD_BYTE (R79): one zero byte. -/
def execEndPadByte (s : State) : Host.Outcome State Fault Refusal :=
  .next (s.putFrame (wireBytes (encode .endPadByte)))

end Sys2Proof.Machine
end

