-- ==== Sys2Proof/Machine/Pixel.lean ====
section
/-! DEFINITION. The pixel instructions SET, SETB, SETP and GET (41_pixel_access.md R103 to R108). -/

namespace Sys2Proof.Machine

/-- SET (R103): SETB with the percentage 100 (92_eei_decisions.md D8). -/
def execSet (idx : BitVec 16) (red green blue : Byte) (s : State) : Host.Outcome State Fault Refusal :=
  whenReady s (setPixel idx red green blue Config.pctDefault)

/-- SETB (R104). -/
def execSetb (idx : BitVec 16) (red green blue : Byte) (pct : BitVec 8) (s : State) : Host.Outcome State Fault Refusal :=
  whenReady s (setPixel idx red green blue pct)

/-- SETP (R105): the packed colour taken apart (R70), then as SETB. -/
def execSetp (idx : BitVec 16) (rgb24 : BitVec 24) (pct : BitVec 8) (s : State) : Host.Outcome State Fault Refusal :=
  whenReady s (setPixel idx (redOf rgb24) (greenOf rgb24) (blueOf rgb24) pct)

/-- GET (R108): out of range `OK` with valid 0 (R106); then DIVZERO for GB = 0 (R107); else the colours and the
reconstructed percentage. No state but the response changes. -/
def execGet (idx : BitVec 16) (s : State) : Host.Outcome State Fault Refusal :=
  whenReady s fun s =>
    match pixelIndex idx s.numleds with
    | none => raise .ok s
    | some i =>
      if s.gb = 0 then raise .divzero s
      else
        match s.loadPixel i with
        | .error f => .fault f
        | .ok px => .next (s.give (responseWord .ok 1 px.red px.green px.blue (recon (brightnessOf px.hdr) s.gb)))

end Sys2Proof.Machine
end

