-- ==== Sys2Proof/Machine/Rotate.lean ====
section
/-! DEFINITION. ROT (42_rotate.md R120 to R122). -/

namespace Sys2Proof.Machine

/-- ROT (R122): the whole buffer shifted circularly by `4 * m` bytes, m of R120, in the direction ROT_DIR (R121). -/
def execRot (pos : BitVec 16) (s : State) : Host.Outcome State Fault Refusal :=
  whenReady s fun s =>
    match s.memRead 0 s.bufLen with
    | .error f => .fault f
    | .ok old =>
      match s.memWrite 0 (shiftBy s.params.rotDir (Config.stride * rotateAmount pos s.numleds) old) with
      | .error f => .fault f
      | .ok t => .next (t.respond .ok)

end Sys2Proof.Machine
end

