-- ==== Sys2Proof/Machine/Dispatch.lean ====
section
/-! DEFINITION. One arm per constructor of Instr, each one call of its meaning. -/

namespace Sys2Proof.Machine

def exec (i : Instr) (s : State) : Host.Outcome State Fault Refusal :=
  match i with
  | .config nleds tag gb hasreset tportOk => Sys2Proof.Machine.execConfig nleds tag gb hasreset tportOk s
  | .set idx red green blue => Sys2Proof.Machine.execSet idx red green blue s
  | .setb idx red green blue pct => Sys2Proof.Machine.execSetb idx red green blue pct s
  | .setp idx rgb24 pct => Sys2Proof.Machine.execSetp idx rgb24 pct s
  | .get idx => Sys2Proof.Machine.execGet idx s
  | .rot pos => Sys2Proof.Machine.execRot pos s
  | .setgb val => Sys2Proof.Machine.execSetgb val s
  | .showFrame => Sys2Proof.Machine.execShowFrame s
  | .clear => Sys2Proof.Machine.execClear s
  | .teardown => Sys2Proof.Machine.execTeardown s
  | .startFrame => Sys2Proof.Machine.execStartFrame s
  | .pixelFrame q x y z => Sys2Proof.Machine.execPixelFrame q x y z s
  | .resetFrame => Sys2Proof.Machine.execResetFrame s
  | .endPadByte => Sys2Proof.Machine.execEndPadByte s

end Sys2Proof.Machine
end

