-- ==== Sys2Proof/Machine/Fetch.lean ====
section
/-! DEFINITION. What a step has to do before an instruction runs: take the reset input, let an operation that waits go on
or wait, take the next word and decode it (10_state.md R21, 30_encoding.md R75, 70_reset_and_hazards.md R197, R204, R205). -/

namespace Sys2Proof.Machine

/-- What fetching comes to: the step is done, it stops, or an instruction runs in a state. -/
inductive Fetched where
  | settled (s : State)
  | stopped (r : Refusal)
  | runs (i : Instr) (s : State)

/-- An operation that waits: it completes with the transport's next answer, and while there is none nothing happens
(R136, R197). -/
def resume (s : State) (w : Waiting) : State :=
  match s.answers with
  | [] => s
  | r :: rest => State.complete { s with answers := rest, waiting := none } w r

/-- A command taken becomes the last one of the run (R205; log 22). -/
def State.record (s : State) (p : PortWord) : State := { s with commands := s.commands ++ commandsOf p }

/-- A word taken from its port, in the state without it: an illegal command is answered ILLEGAL, "in either mode" and
with no other change (R75, R177); a wire word that is no frame has no meaning (log 17). -/
def accept (p : PortWord) (s : State) : Fetched :=
  match decode s.frame.isEmpty p with
  | .ok i => .runs i (s.record p)
  | .error .noSuchFrame => .stopped .notAWireFrame
  | .error .reservedOp => .settled ((s.record p).respond .illegal)
  | .error .reservedBits => .settled ((s.record p).respond .illegal)

/-- The next thing to happen. Reset acts at any time, also during a command (R204; log 12). While an operation waits, no
word is taken (R197). With nothing presented LFE waits for the next command (R205; log 13). -/
def fetch (s : State) : Fetched :=
  match s.inbox, s.waiting with
  | .reset :: rest, _ => .settled (State.assertReset { s with inbox := rest })
  | _, some w => .settled (resume s w)
  | [], none => .settled s
  | .word p :: rest, none => accept p { s with inbox := rest }

/-- The word presented before everything else, with no operation in progress: the next step takes it. A program is the
list of events the outside puts into `inbox` (log 5). -/
def presentWord (s : State) (p : PortWord) : State := { s with inbox := .word p :: s.inbox, waiting := none }

end Sys2Proof.Machine
end

