-- ==== Sys2Proof/Machine/Step.lean ====
section
/-! DEFINITION. One step of LFE: what fetching comes to, and the meaning of the instruction it finds. -/

namespace Sys2Proof.Machine

/-- One step. -/
def step (s : State) : Host.Outcome State Fault Refusal :=
  match fetch s with
  | .settled t => .next t
  | .stopped r => .refused r
  | .runs i t => exec i t

/-- The state with an instruction of the opcode table presented, so that the very next step runs it (log 5). A width no
row has presents nothing. -/
def State.withFetchWord (s : State) (nbits w : Nat) : State :=
  match portWordOf nbits w with
  | some p => presentWord s p
  | none => s

end Sys2Proof.Machine
end

