-- ==== Sys2Proof/Machine/Assembler.lean ====
section
/-! DEFINITION. The assembler of 30_encoding.md R81 and R82: one command a line, a mnemonic and its operands separated by
commas, `;` to the end of the line a comment. What R81 leaves open (blanks, letter case, numbers too big) is in log 18. -/

namespace Sys2Proof.Machine

/-- A blank between the parts of a line. -/
def isBlank (c : Char) : Bool := c = ' ' || c = '\t'

/-- The text without blanks at either end. -/
def trimBlanks (l : List Char) : List Char := ((l.dropWhile isBlank).reverse.dropWhile isBlank).reverse

/-- The line without its comment: "A `;` starts a comment" (R81). -/
def stripComment (l : List Char) : List Char := l.takeWhile (fun c => c ≠ ';')

/-- The texts between commas, in order; one text more than there are commas. -/
def splitCommas : List Char → List (List Char)
  | [] => [[]]
  | c :: cs =>
    match splitCommas cs with
    | [] => [[c]]
    | t :: ts => if c = ',' then [] :: t :: ts else (c :: t) :: ts

/-- The value of a digit in a base up to 16. -/
def digitValue (base : Nat) (c : Char) : Option Nat :=
  let n := c.toNat
  let v := if 48 ≤ n ∧ n ≤ 57 then n - 48 else if 65 ≤ n ∧ n ≤ 70 then n - 55 else if 97 ≤ n ∧ n ≤ 102 then n - 87 else 16
  if v < base then some v else none

/-- The number the digits spell, after acc. -/
def digitsValue (base : Nat) : Nat → List Char → Option Nat
  | acc, [] => some acc
  | acc, c :: cs =>
    match digitValue base c with
    | none => none
    | some d => digitsValue base (base * acc + d) cs

/-- "A number is decimal, or hexadecimal with `0x`" (R81). -/
def parseNat : List Char → Option Int
  | [] => none
  | '0' :: 'x' :: c :: cs => (digitsValue 16 0 (c :: cs)).map Int.ofNat
  | c :: cs => (digitsValue 10 0 (c :: cs)).map Int.ofNat

/-- "`idx` and `pos` may carry a minus sign" (R81). -/
def parseSigned : List Char → Option Int
  | '-' :: cs => (parseNat cs).map (fun v => -v)
  | cs => parseNat cs

/-- "`tag` is one of the six names of rule R73 or a number 0..255" (R81). -/
def parseTag : List Char → Option Int
  | ['r', 'g', 'b'] => some 0
  | ['r', 'b', 'g'] => some 1
  | ['g', 'r', 'b'] => some 2
  | ['g', 'b', 'r'] => some 3
  | ['b', 'r', 'g'] => some 4
  | ['b', 'g', 'r'] => some 5
  | cs => parseNat cs

/-- A CONFIG from its five operands. -/
def sourceConfig (n t g h k : List Char) : Option Source := do
  some (.config (← parseNat n) (← parseTag t) (← parseNat g) (← parseNat h) (← parseNat k))

/-- A SETB from its five operands. -/
def sourceSetb (i r g b p : List Char) : Option Source := do
  some (.setb (← parseSigned i) (← parseNat r) (← parseNat g) (← parseNat b) (← parseNat p))

/-- A SETP from its three operands. -/
def sourceSetp (i c p : List Char) : Option Source := do
  some (.setp (← parseSigned i) (← parseNat c) (← parseNat p))

/-- The command of a mnemonic and its operand texts (R81), the five pseudo-instructions of R82 expanded. -/
def sourceOf : List Char → List (List Char) → Option Source
  | ['C', 'O', 'N', 'F', 'I', 'G'], [n, t, g, h, k] => sourceConfig n t g h k
  | ['C', 'O', 'N', 'F', 'I', 'G'], [n, t, g, h] => sourceConfig n t g h ['1']
  | ['C', 'O', 'N', 'F', 'I', 'G'], [n, t, g] => sourceConfig n t g ['1'] ['1']
  | ['S', 'E', 'T'], [i, r, g, b] => do
    some (.set (← parseSigned i) (← parseNat r) (← parseNat g) (← parseNat b))
  | ['S', 'E', 'T', 'B'], [i, r, g, b, p] => sourceSetb i r g b p
  | ['S', 'E', 'T', 'B'], [i, r, g, b] => sourceSetb i r g b ['1', '0', '0']
  | ['S', 'E', 'T', 'P'], [i, c, p] => sourceSetp i c p
  | ['S', 'E', 'T', 'P'], [i, c] => sourceSetp i c ['1', '0', '0']
  | ['G', 'E', 'T'], [i] => (parseSigned i).map .get
  | ['R', 'O', 'T'], [p] => (parseSigned p).map .rot
  | ['R', 'O', 'T'], [] => some (.rot 1)
  | ['S', 'E', 'T', 'G', 'B'], [v] => (parseNat v).map .setgb
  | ['S', 'H', 'O', 'W'], [] => some .showFrame
  | ['C', 'L', 'E', 'A', 'R'], [] => some .clear
  | ['T', 'E', 'A', 'R', 'D', 'O', 'W', 'N'], [] => some .teardown
  | _, _ => none

/-- The source command of a line that has one (its comment stripped, blanks trimmed at both ends). -/
def parseCommand (l : List Char) : Option Source :=
  let name := l.takeWhile (fun c => !isBlank c)
  let rest := trimBlanks (l.dropWhile (fun c => !isBlank c))
  sourceOf name (if rest = [] then [] else (splitCommas rest).map trimBlanks)

/-- The instruction of a line that has one: every operand has to fit its field (R61). -/
def assembleCommand (l : List Char) : Option Instr :=
  match parseCommand l with
  | none => none
  | some src => if src.wellFormed then some src.toInstr else none

/-- The instructions of a text, "One command per line" (R81); lines with nothing but blanks and a comment have none. -/
def assemble : List (List Char) → Option (List Instr)
  | [] => some []
  | l :: ls =>
    if trimBlanks (stripComment l) = [] then assemble ls
    else
      match assembleCommand (trimBlanks (stripComment l)), assemble ls with
      | some i, some is => some (i :: is)
      | _, _ => none

end Sys2Proof.Machine
end

