-- ==== Sys2Proof/Safety.lean ====
section
/-! DEFINITION. The terms claims are stated in: the invariant of a run (10_state.md R24, R25, R31; 20_memory.md R43), when the
transport is held (44_config_control.md R160), what a transaction is (30_encoding.md R80), a transaction as a list of wire
frames, what a pixel write and a frame leave, what may be claimed of the wire (60_exceptions.md R175) and how a run ends
(70_reset_and_hazards.md R205). -/

namespace Sys2Proof.Machine

/-! ## The invariant of a run -/

/-- Every byte of the buffer holds a value. -/
abbrev State.held (s : State) : Prop := ∀ a < 4 * s.numleds.toNat, (Memory.read s.buf a).isSome = true

/-- "for every `0 <= i < NUMLEDS`: `buf[4i][7:5] = 0b111`" (R31). -/
abbrev State.headersMarked (s : State) : Prop :=
  ∀ i < s.numleds.toNat, (Memory.read s.buf (4 * i)).map (fun h => field h 5 3) = some 7

/-- What READY means: a legal LED count (R24), a buffer of exactly the bytes `0 .. 4*NUMLEDS - 1` (R28), every header
marked (R31). -/
abbrev State.constructed (s : State) : Prop :=
  1 ≤ s.numleds.toNat ∧ s.numleds.toNat ≤ 1024 ∧ s.buf.map Prod.fst = List.range (4 * s.numleds.toNat) ∧ s.headersMarked

/-- What an operation in progress may be: CONFIG with operands that passed its checks, in UNCONFIGURED; or a write of the
frame of the state as it stands, in READY (R136: nothing can change while it waits). -/
def State.waitingOk (s : State) : Bool :=
  match s.waiting with
  | none => true
  | some (.acquire nleds _ gb _) => s.mode == .unconfigured && configError nleds gb 1 == none
  | some .showFrame | some .clear | some .teardown =>
    s.mode == .ready &&
      match s.buildFrame with
      | .ok f => f == s.frame
      | .error _ => false

/-- The invariant of a run. -/
abbrev State.Inv (s : State) : Prop :=
  s.order.legal = true ∧ s.params.legal = true ∧ (s.mode = .ready → s.constructed) ∧
    (s.mode = .unconfigured → s.buf = []) ∧ s.waitingOk = true

/-! ## The transport -/

/-- Whether LFE holds the transport, from the history: acquired and not released since. -/
def transportHeld : List Call → Bool → Bool
  | [], b => b
  | .acquire .ok :: l, _ => transportHeld l true
  | .acquire .err :: l, b => transportHeld l b
  | .write _ _ :: l, b => transportHeld l b
  | .release :: l, _ => transportHeld l false

/-- The frames a claim may say the LED chain received: those of `write(F, Ok)` entries (R10, R175). -/
def receivedFrames : List Call → List (List Byte)
  | [] => []
  | .write f .ok :: l => f :: receivedFrames l
  | .write _ .err :: l => receivedFrames l
  | .acquire _ :: l => receivedFrames l
  | .release :: l => receivedFrames l

/-! ## Frames -/

/-- The whole transaction around the pixel bytes px, for n LEDs and the option h (R80): "4 zero-byte start frame +
`4*numLeds` pixel bytes + optional 4 zero-byte reset frame + `ceil(numLeds/16)` zero bytes end padding". -/
def frameAround (n : Nat) (h : BitVec 1) (px : List Byte) : List Byte :=
  List.replicate 4 0 ++ px ++ (if h = 1 then List.replicate 4 0 else []) ++ List.replicate ((n + 15) / 16) 0

/-- A well-formed transaction (R80, R31): for some legal LED count, pixel bytes whose every fourth byte carries the marker. -/
def isTransaction (f : List Byte) : Prop :=
  ∃ (n : Nat) (h : BitVec 1) (px : List Byte), 1 ≤ n ∧ n ≤ 1024 ∧ px.length = 4 * n ∧
    (∀ i < n, (px[4 * i]?).map (fun b => field b 5 3) = some 7) ∧ f = frameAround n h px

/-- Every frame handed to the transport is a well-formed transaction. -/
def allTransactions (th : List Call) : Prop := ∀ f r, Call.write f r ∈ th → isTransaction f

/-- The list is the bytes the buffer holds at the offsets from 0. -/
def holdsBytes (m : Memory) (len : Nat) (px : List Byte) : Prop :=
  px.length = len ∧ ∀ j < len, Memory.read m j = px[j]?

/-- The list is n black pixels with the brightness gb (R139). -/
def blackPixels (n : Nat) (gb : BitVec 5) (px : List Byte) : Prop :=
  px.length = 4 * n ∧ ∀ i < n, px[4 * i]? = some (0xE0#8 ||| gb.setWidth 8) ∧ px[4 * i + 1]? = some 0 ∧
    px[4 * i + 2]? = some 0 ∧ px[4 * i + 3]? = some 0

/-- The wire frames of a list of pixel bytes (R77), the brightness taken from each header. -/
def pixelFrames : List Byte → List Instr
  | h :: x :: y :: z :: rest => .pixelFrame (brightnessOf h) x y z :: pixelFrames rest
  | _ => []

/-- The wire frames of a transaction in the order of R134. -/
def State.wireFrames (s : State) (px : List Byte) : List Instr :=
  .startFrame :: (pixelFrames px ++ (if s.hasreset = 1 then [.resetFrame] else []) ++ List.replicate s.padLen .endPadByte)

/-- Instructions one after the other, up to the first stop. -/
def runAll : List Instr → State → Host.Outcome State Fault Refusal
  | [], s => .next s
  | i :: is, s =>
    match exec i s with
    | .next t => runAll is t
    | .fault f => .fault f
    | .refused r => .refused r

/-! ## Writes and responses -/

/-- What storing pixel i leaves (R102): the header with the brightness q, the colours at the offsets of ORDER, every byte
outside the pixel as it was, one response `OK`, and nothing else changed. -/
def pixelStored (s t : State) (i : Nat) (red green blue : Byte) (q : Nat) : Prop :=
  t = { s with buf := t.buf, responses := s.responses ++ [statusWord .ok] } ∧
    Memory.read t.buf (4 * i) = some (0xE0#8 ||| BitVec.ofNat 8 q) ∧
    Memory.read t.buf (4 * i + s.order.r.toNat) = some red ∧
    Memory.read t.buf (4 * i + s.order.g.toNat) = some green ∧
    Memory.read t.buf (4 * i + s.order.b.toNat) = some blue ∧
    ∀ a, a < 4 * i ∨ 4 * i + 4 ≤ a → Memory.read t.buf a = Memory.read s.buf a

/-- A GET response with these colours (R66, R108): status OK, valid, the colours in their fields, zeros in the fields R66
gives no use; the percentage is said apart. -/
def getResponse (w : CmdWord) (red green blue : Byte) : Prop :=
  field w 60 4 = 0 ∧ field w 59 1 = 1 ∧ field w 44 15 = 0 ∧ field w 36 8 = red ∧ field w 28 8 = green ∧
    field w 20 8 = blue ∧ field w 0 8 = 0

/-- The buffers of a circular shift of len bytes by k (R121), read byte by byte, in a direction. -/
def shifted (d : RotDir) (len k : Nat) (old new : Memory) : Prop :=
  (∀ j < len,
    match d with
    | .towardLower => Memory.read new j = Memory.read old ((j + k) % len)
    | .towardHigher => Memory.read new ((j + k) % len) = Memory.read old j) ∧
    ∀ a, len ≤ a → Memory.read new a = Memory.read old a

/-! ## How a run ends -/

/-- The last command of the run so far is a TEARDOWN (R205). -/
abbrev State.lastIsTeardown (s : State) : Prop := s.commands.getLast?.map PortWord.command = some (encode .teardown)

/-- No command of this run is to come: the host brings nothing more, or what it brings next is reset, at which a new run
begins. That a reset still to come ends the run as nothing to come does, the spec leaves open: DESIGN CHOICE (log 23). -/
abbrev State.runOver (s : State) : Prop := s.inbox.head? = none ∨ s.inbox.head? = some .reset

/-- A run orderly ended (R205): it is over, "its last command is a TEARDOWN that has responded (`OK` or `TRANSPORT`), so
that `MODE = UNCONFIGURED` and the last entry of `TH` is `release`". That TEARDOWN has responded when no operation is in
progress and the last response has one of the two statuses. A reset that follows does not undo it: DESIGN CHOICE (log 23). -/
abbrev State.orderlyEnded (s : State) : Prop :=
  s.runOver ∧ s.lastIsTeardown ∧ s.waiting = none ∧
    (s.responses.getLast? = some (statusWord .ok) ∨ s.responses.getLast? = some (statusWord .transport)) ∧
    s.mode = .unconfigured ∧ s.th.getLast? = some .release

/-- The state of an abandoned run (R205): it stops in READY, with nothing in progress and no command of it to come. A run
that a reset cuts short there is abandoned too: DESIGN CHOICE (log 23); the transport stays acquired then as well (R191). -/
abbrev State.abandoned (s : State) : Prop := s.mode = .ready ∧ s.waiting = none ∧ s.runOver

/-- The state of a hung run (R197, R205): an operation waits for a write that no answer is left for, and the next event is
not reset, the one thing that ends the wait. A reset behind a word is never reached, since no word is taken. A run whose
wait a reset does end has none of the three names, which the spec leaves open: DESIGN CHOICE (log 23). -/
abbrev State.hung (s : State) : Prop :=
  (s.waiting = some .showFrame ∨ s.waiting = some .clear ∨ s.waiting = some .teardown) ∧ s.answers = [] ∧
    s.inbox.head? ≠ some .reset

/-- After a TEARDOWN as the last command: it waits for its write, or it has responded and MODE is UNCONFIGURED (R159,
R161, R205). -/
abbrev State.teardownEnds (s : State) : Prop :=
  s.lastIsTeardown → s.waiting = some .teardown ∨ s.waiting = none ∧ s.mode = .unconfigured

end Sys2Proof.Machine
end

