-- ==== Sys2Proof/Certificates/Slice0/Obligations.lean ====
section
/-! DEFINITION. The statements for the provers, from the spec's numbered rules. -/

open Sys2Proof Sys2Proof.Machine

/-! ## Encoding -/

/-- Every instruction is read back from its own word: no bit of an operand is dropped (30_encoding.md sections 1 and 4). -/
def Obligations.DecodeEncodeRoundTrip : Prop :=
  ∀ i : Instr, decode (standsFirst i) (encode i) = .ok i

/-- A word that decodes is the word of the instruction it decodes to, so each word has one reading and every bit of it
counts (30_encoding.md sections 1, 3 and 4). -/
def Obligations.DecodedWordIsItsEncoding : Prop :=
  ∀ (first : Bool) (p : PortWord) (i : Instr), decode first p = .ok i → encode i = p

/-- A command word is illegal exactly when its operation code or one of the bits its format reserves says so
(30_encoding.md section 3, first sentence of the rule on illegal words). -/
def Obligations.IllegalExactlyByReservedBits : Prop :=
  ∀ w : CmdWord,
    (∃ e, decodeCommand w = .error e) ↔
      let op := (field w 60 4).toNat
      op = 0 ∨ 11 ≤ op ∨ ((op = 3 ∨ op = 4) ∧ field w 0 12 ≠ 0) ∨ (op = 2 ∧ field w 0 20 ≠ 0) ∨
        ((op = 5 ∨ op = 6) ∧ field w 0 44 ≠ 0) ∨ ((op = 8 ∨ op = 9 ∨ op = 10) ∧ field w 0 60 ≠ 0) ∨
        (op = 7 ∧ (field w 20 40 ≠ 0 ∨ field w 0 12 ≠ 0)) ∨ (op = 1 ∧ (field w 20 16 ≠ 0 ∨ field w 0 10 ≠ 0))

/-- R177: an illegal word is answered ILLEGAL whatever the mode, with no other change; a legal one never is. -/
def Obligations.LegalityIndependentOfState : Prop :=
  (∀ (s : State) (w : CmdWord) (e : DecodeError) (rest : List Event), s.waiting = none →
      s.inbox = .word (.command w) :: rest → decodeCommand w = .error e →
      ∃ t, step s = .next t ∧
        t = { s with
          inbox := rest
          commands := t.commands
          responses := s.responses ++ [statusWord .illegal] }) ∧
    ∀ (w : CmdWord) (i : Instr) (s t : State), decodeCommand w = .ok i → exec i s = .next t →
      t.responses ≠ s.responses ++ [statusWord .illegal]

/-- The example words of 30_encoding.md section 1, 95_test_vectors.md V8 and the patterns of section 4 are read as the
instructions the spec writes beside them. -/
def Obligations.SpecWordsDecode : Prop :=
  decodeTableWord 64 0x100020000001FC00 = some (.config 2 0 31 1 1) ∧
    decodeTableWord 64 0x20000FF000000000 = some (.set 0 255 0 0) ∧
    decodeTableWord 64 0x3000111223332000 = some (.setb 1 0x11 0x22 0x33 50) ∧
    decodeTableWord 64 0x4000111223332000 = some (.setp 1 0x112233 50) ∧
    decodeTableWord 64 0x6FFFF00000000000 = some (.rot (-1)) ∧
    decodeTableWord 64 0x7000000000008000 = some (.setgb 8) ∧
    decodeTableWord 64 0xA000000000000000 = some .teardown ∧
    decodeTableWord 64 0x20000FF000064000 = none ∧
    decodeTableWord 32 0xF0332211 = some (.pixelFrame 16 0x33 0x22 0x11)

/-- Two words that differ in the operation code alone, SETB and SETP, do the same thing (30_encoding.md, format K). -/
def Obligations.SetpWordActsAsSetbWord : Prop :=
  ∀ (w v : CmdWord) (i j : Instr) (s : State), field w 60 4 = 3 → field v 60 4 = 4 → field w 0 60 = field v 0 60 →
    decodeCommand w = .ok i → decodeCommand v = .ok j → exec i s = exec j s

/-- R82: the five shorter spellings are the commands with the stated defaults, whatever the other operands are, and no
other number of operands is a command. -/
def Obligations.PseudoInstructionsExpand : Prop :=
  (∀ i r g b : List Char, sourceOf "SETB".toList [i, r, g, b] = sourceOf "SETB".toList [i, r, g, b, "100".toList]) ∧
    (∀ i c : List Char, sourceOf "SETP".toList [i, c] = sourceOf "SETP".toList [i, c, "100".toList]) ∧
    sourceOf "ROT".toList [] = sourceOf "ROT".toList ["1".toList] ∧
    (∀ n t g : List Char,
      sourceOf "CONFIG".toList [n, t, g] = sourceOf "CONFIG".toList [n, t, g, "1".toList, "1".toList]) ∧
    (∀ n t g h : List Char,
      sourceOf "CONFIG".toList [n, t, g, h] = sourceOf "CONFIG".toList [n, t, g, h, "1".toList]) ∧
    ∀ (m : List Char) (args : List (List Char)), (sourceOf m args).isSome = true →
      (m, args.length) ∈ [("CONFIG".toList, 5), ("CONFIG".toList, 4), ("CONFIG".toList, 3), ("SET".toList, 4),
        ("SETB".toList, 5), ("SETB".toList, 4), ("SETP".toList, 3), ("SETP".toList, 2), ("GET".toList, 1),
        ("ROT".toList, 1), ("ROT".toList, 0), ("SETGB".toList, 1), ("SHOW".toList, 0), ("CLEAR".toList, 0),
        ("TEARDOWN".toList, 0)]

/-! ## The step -/

/-- A word at the head of the inbox that decodes is the instruction the step runs, in the state without that word, which a
command joins to the run. For a command word this is the host's command run (30_encoding.md section 1, 10_state.md section
1, 70_reset_and_hazards.md section 5). That the words to come are a list in State is the model's choice (log 5), so is the
record of the commands taken (log 22), and so is all it says of words at the wire port: that one can be presented at all
(log 8) and that 32 zero bits are read by whether the frame is empty (log 9). -/
def Obligations.StepRunsDecodedInstruction : Prop :=
  ∀ (s : State) (p : PortWord) (rest : List Event) (i : Instr), s.waiting = none → s.inbox = .word p :: rest →
    decode s.frame.isEmpty p = .ok i →
    i.wellFormed = true ∧ step s = exec i { s with inbox := rest, commands := s.commands ++ commandsOf p }

/-- While an operation waits no word is taken; with no answer nothing happens; with an answer the operation completes
with one response (70_reset_and_hazards.md section 3; the list of answers is the model's, log 6 and log 7). -/
def Obligations.WaitingOperationTakesNoWord : Prop :=
  ∀ (s : State) (w : Waiting), s.waiting = some w → (∀ rest, s.inbox ≠ .reset :: rest) →
    (s.answers = [] → step s = .next s) ∧
      ∀ r rest, s.answers = r :: rest →
        ∃ t rsp, step s = .next t ∧ t.inbox = s.inbox ∧ t.answers = rest ∧ t.waiting = none ∧
          t.responses = s.responses ++ [rsp]

/-- With nothing presented and nothing in progress LFE waits (70_reset_and_hazards.md section 5; that a step then changes
nothing is the model's, log 13). -/
def Obligations.IdleStepChangesNothing : Prop :=
  ∀ s : State, s.waiting = none → s.inbox = [] → step s = .next s

/-- The reset input, at any time and also while an operation waits, leaves UNCONFIGURED, no command in progress and an
empty transport history (70_reset_and_hazards.md section 1). That what the outside has still to bring and the parameters
stay, and that a new run begins, is the model's choice (log 12, log 22). -/
def Obligations.ResetInputUnconfigures : Prop :=
  ∀ (s : State) (rest : List Event), s.inbox = .reset :: rest →
    ∃ t, step s = .next t ∧ t.mode = .unconfigured ∧ t.waiting = none ∧ t.th = [] ∧ t.inbox = rest ∧
      t.answers = s.answers ∧ t.params = s.params ∧ t.commands = []

/-- R190: after reset LFE is UNCONFIGURED, no command is in progress and the transport history is empty, whatever the open
parameters are. -/
def Obligations.ResetStateUnconfigured : Prop :=
  (State.reset.mode = .unconfigured ∧ State.reset.waiting = none ∧ State.reset.th = []) ∧
    ∀ p : Params, (State.resetUnder p).mode = .unconfigured ∧ (State.resetUnder p).waiting = none ∧
      (State.resetUnder p).th = []

/-- One response per command: a command taken is answered at once by exactly one word, or leaves LFE waiting with none
yet; that one comes with the answer (70_reset_and_hazards.md section 5, "LFE owes"). The command joins the run; that the run
is recorded is the model's choice (log 22). -/
def Obligations.OneResponsePerCommand : Prop :=
  ∀ (s t : State) (w : CmdWord) (rest : List Event), s.waiting = none → s.inbox = .word (.command w) :: rest →
    step s = .next t →
    t.inbox = rest ∧ t.commands = s.commands ++ [w] ∧
      ((t.waiting = none ∧ ∃ rsp, t.responses = s.responses ++ [rsp]) ∨ (t.waiting ≠ none ∧ t.responses = s.responses))

/-- The only word a step refuses is one at the wire port that is none of the four frame kinds (log 17). -/
def Obligations.OnlyWireWordsAreRefused : Prop :=
  ∀ (s : State) (r : Refusal), step s = .refused r →
    r = .notAWireFrame ∧
      ∃ p rest e, s.inbox = .word p :: rest ∧ (∀ w, p ≠ .command w) ∧ decode s.frame.isEmpty p = .error e

/-! ## Pixels -/

/-- R102, R104: SETB, in its encoding, stores one pixel with the quintet of its percentage, or does nothing for an index
out of range; NOTREADY in UNCONFIGURED. -/
def Obligations.SetbStoresPixel : Prop :=
  ∀ (s : State) (idx : BitVec 16) (r g b : Byte) (pct : BitVec 8),
    decodeCommand (3#4 ++ idx ++ r ++ g ++ b ++ pct ++ 0#12) = .ok (.setb idx r g b pct) ∧
      (s.mode = .unconfigured → exec (.setb idx r g b pct) s = .next (s.respond .notready)) ∧
      (s.mode = .ready → s.order.legal = true →
        (∀ i : Nat, sint idx = i → i < s.numleds.toNat →
            ∃ t, exec (.setb idx r g b pct) s = .next t ∧
              pixelStored s t i r g b ((pct.toNat * s.gb.toNat + 99) / 100 % 32)) ∧
          (sint idx < 0 ∨ (s.numleds.toNat : Int) ≤ sint idx → exec (.setb idx r g b pct) s = .next (s.respond .ok)))

/-- R103: SET, in its encoding, stores one pixel with the brightness GB, or does nothing for an index out of range;
NOTREADY in UNCONFIGURED. -/
def Obligations.SetStoresPixelAtFullPercentage : Prop :=
  ∀ (s : State) (idx : BitVec 16) (r g b : Byte),
    decodeCommand (2#4 ++ idx ++ r ++ g ++ b ++ 0#20) = .ok (.set idx r g b) ∧
      (s.mode = .unconfigured → exec (.set idx r g b) s = .next (s.respond .notready)) ∧
      (s.mode = .ready → s.order.legal = true →
        (∀ i : Nat, sint idx = i → i < s.numleds.toNat →
            ∃ t, exec (.set idx r g b) s = .next t ∧ pixelStored s t i r g b s.gb.toNat) ∧
          (sint idx < 0 ∨ (s.numleds.toNat : Int) ≤ sint idx → exec (.set idx r g b) s = .next (s.respond .ok)))

/-- R70, R105: SETP, in its encoding, stores the pixel of its packed colour `0xRRGGBB`, or does nothing for an index out
of range; NOTREADY in UNCONFIGURED. -/
def Obligations.SetpStoresUnpackedPixel : Prop :=
  ∀ (s : State) (idx : BitVec 16) (rgb24 : BitVec 24) (pct : BitVec 8),
    decodeCommand (4#4 ++ idx ++ rgb24 ++ pct ++ 0#12) = .ok (.setp idx rgb24 pct) ∧
      (s.mode = .unconfigured → exec (.setp idx rgb24 pct) s = .next (s.respond .notready)) ∧
      (s.mode = .ready → s.order.legal = true →
        (∀ i : Nat, sint idx = i → i < s.numleds.toNat →
            ∃ t, exec (.setp idx rgb24 pct) s = .next t ∧
              pixelStored s t i (BitVec.ofNat 8 (rgb24.toNat / 65536)) (BitVec.ofNat 8 (rgb24.toNat / 256))
                (BitVec.ofNat 8 rgb24.toNat) ((pct.toNat * s.gb.toNat + 99) / 100 % 32)) ∧
          (sint idx < 0 ∨ (s.numleds.toNat : Int) ≤ sint idx → exec (.setp idx rgb24 pct) s = .next (s.respond .ok)))

/-- R106, R108: GET, in its encoding, answers `valid` 0 out of range whatever GB is, DIVZERO in range for GB = 0, and else
the colours and `(s * 100) div GB`; nothing but the response changes; NOTREADY in UNCONFIGURED. -/
def Obligations.GetAnswersPixel : Prop :=
  ∀ (s : State) (idx : BitVec 16),
    decodeCommand (5#4 ++ idx ++ 0#44) = .ok (.get idx) ∧
      (s.mode = .unconfigured → exec (.get idx) s = .next (s.respond .notready)) ∧
      (s.mode = .ready →
        (sint idx < 0 ∨ (s.numleds.toNat : Int) ≤ sint idx → exec (.get idx) s = .next (s.respond .ok)) ∧
          ∀ i : Nat, sint idx = i → i < s.numleds.toNat →
            (s.gb = 0 → exec (.get idx) s = .next (s.respond .divzero)) ∧
              (s.gb ≠ 0 → ∀ h r g b : Byte, Memory.read s.buf (4 * i) = some h →
                Memory.read s.buf (4 * i + s.order.r.toNat) = some r →
                Memory.read s.buf (4 * i + s.order.g.toNat) = some g →
                Memory.read s.buf (4 * i + s.order.b.toNat) = some b →
                ∃ w, exec (.get idx) s = .next { s with responses := s.responses ++ [w] } ∧ getResponse w r g b ∧
                  (field w 8 12).toNat = h.toNat % 32 * 100 / s.gb.toNat))

/-- R109: after SET, SETB or SETP of a colour to a pixel, and with that pixel's bytes, ORDER and NUMLEDS as that write left
them, GET returns exactly that colour. -/
def Obligations.ColourRoundTrip : Prop :=
  ∀ (s t u : State) (idx : BitVec 16) (r g b : Byte) (pct : BitVec 8) (i : Nat), s.mode = .ready →
    s.order.legal = true → sint idx = i → i < s.numleds.toNat →
    (exec (.set idx r g b) s = .next t ∨ exec (.setb idx r g b pct) s = .next t ∨
      exec (.setp idx (r ++ g ++ b) pct) s = .next t) →
    u.mode = .ready → u.order = t.order → u.numleds = t.numleds → u.gb ≠ 0 →
    (∀ k < 4, Memory.read u.buf (4 * i + k) = Memory.read t.buf (4 * i + k)) →
    ∃ w, exec (.get idx) u = .next { u with responses := u.responses ++ [w] } ∧ getResponse w r g b

/-- R110: with GB unchanged and a percentage up to 100, the percentage read back is at least the one written and exceeds
it by less than `100/GB`; 100 and 0 read back exactly. -/
def Obligations.BrightnessRoundTrip : Prop :=
  ∀ (s t u : State) (idx : BitVec 16) (r g b : Byte) (pct : BitVec 8) (i : Nat), s.mode = .ready →
    s.order.legal = true → sint idx = i → i < s.numleds.toNat → 1 ≤ s.gb.toNat → pct.toNat ≤ 100 →
    exec (.setb idx r g b pct) s = .next t →
    u.mode = .ready → u.order = t.order → u.numleds = t.numleds → u.gb = s.gb →
    (∀ k < 4, Memory.read u.buf (4 * i + k) = Memory.read t.buf (4 * i + k)) →
    ∃ w, exec (.get idx) u = .next { u with responses := u.responses ++ [w] } ∧
      pct.toNat ≤ (field w 8 12).toNat ∧
      (field w 8 12).toNat ≤ pct.toNat + (100 + s.gb.toNat - 1) / s.gb.toNat - 1 ∧
      (pct.toNat = 100 → (field w 8 12).toNat = 100) ∧ (pct.toNat = 0 → (field w 8 12).toNat = 0)

/-- R101: the quintet is the rounded-up quotient masked to 5 bits; up to 100 percent the mask drops nothing, and it is
zero only for a zero percentage or a zero GB. -/
def Obligations.QuintetRoundsUpAndWraps : Prop :=
  ∀ (pct : BitVec 8) (gb : BitVec 5),
    (quintet pct gb).toNat = (pct.toNat * gb.toNat + 99) / 100 % 32 ∧
      (pct.toNat ≤ 100 → (pct.toNat * gb.toNat + 99) / 100 ≤ gb.toNat) ∧
      (1 ≤ gb.toNat → 1 ≤ pct.toNat → pct.toNat ≤ 100 → 1 ≤ (quintet pct gb).toNat) ∧
      (gb.toNat = 0 → (quintet pct gb).toNat = 0)

/-- R72: the header byte is `0xE0 | q`, and its brightness is read back from its low five bits. -/
def Obligations.HeaderByteHoldsBrightness : Prop :=
  ∀ q : BitVec 5,
    headerOf q = (0xE0#8 ||| q.setWidth 8) ∧ field (headerOf q) 5 3 = 7 ∧ headerOf q &&& 0x1F#8 = q.setWidth 8 ∧
      brightnessOf (headerOf q) = q

/-- Writing a pixel twice with the same command leaves the buffer as writing it once does (20_memory.md section 3). -/
def Obligations.PixelWritesAreIdempotent : Prop :=
  ∀ (i : Instr) (s t : State),
    ((∃ idx r g b, i = .set idx r g b) ∨ (∃ idx r g b pct, i = .setb idx r g b pct) ∨ ∃ idx c pct, i = .setp idx c pct) →
    exec i s = .next t → ∃ u, exec i t = .next u ∧ u = { t with responses := u.responses }

/-! ## Rotate -/

/-- R120, R121, R122: ROT, in its encoding, shifts the whole buffer circularly by `4 * fmod(sint(pos), NUMLEDS)` bytes in
the direction of ROT_DIR; nothing else changes but the response; NOTREADY in UNCONFIGURED. -/
def Obligations.RotShiftsBuffer : Prop :=
  ∀ (s : State) (pos : BitVec 16),
    decodeCommand (6#4 ++ pos ++ 0#44) = .ok (.rot pos) ∧
      (s.mode = .unconfigured → exec (.rot pos) s = .next (s.respond .notready)) ∧
      (s.mode = .ready → 1 ≤ s.numleds.toNat → s.held →
        ∃ t, exec (.rot pos) s = .next t ∧ t = { s with buf := t.buf, responses := s.responses ++ [statusWord .ok] } ∧
          shifted s.params.rotDir (4 * s.numleds.toNat) (4 * (sint pos % (s.numleds.toNat : Int)).toNat) s.buf t.buf)

/-- R123: ROT k and then ROT of `NUMLEDS - fmod(k, NUMLEDS)` restores the buffer exactly, in either direction. -/
def Obligations.RotInverseRestores : Prop :=
  ∀ (s t : State) (k l : BitVec 16), s.mode = .ready → s.constructed →
    sint l = (s.numleds.toNat : Int) - sint k % (s.numleds.toNat : Int) → exec (.rot k) s = .next t →
    ∃ u, exec (.rot l) t = .next u ∧ u.buf = s.buf

/-- R124: two ROTs are one shift by the sum of their counts, taken modulo NUMLEDS. -/
def Obligations.RotsCompose : Prop :=
  ∀ (s t : State) (a b : BitVec 16), s.mode = .ready → 1 ≤ s.numleds.toNat → s.held → exec (.rot a) s = .next t →
    ∃ u, exec (.rot b) t = .next u ∧
      shifted s.params.rotDir (4 * s.numleds.toNat) (4 * ((sint a + sint b) % (s.numleds.toNat : Int)).toNat) s.buf u.buf

/-! ## The frame and its sending -/

/-- R134, R138: SHOW, in its encoding, makes one transport write of the frame around the buffer's own bytes, answers OK or
TRANSPORT, and changes no register and no byte; NOTREADY in UNCONFIGURED. -/
def Obligations.ShowSendsFrame : Prop :=
  decodeCommand 0x8000000000000000 = .ok .showFrame ∧
    ∀ s : State,
      (s.mode = .unconfigured → exec .showFrame s = .next (s.respond .notready)) ∧
        ∀ (r : TResult) (rest : List TResult), s.mode = .ready → s.held → s.answers = r :: rest →
          ∃ t px, exec .showFrame s = .next t ∧ holdsBytes s.buf (4 * s.numleds.toNat) px ∧
            t = { s with
              answers := rest
              waiting := none
              frame := []
              th := s.th ++ [.write (frameAround s.numleds.toNat s.hasreset px) r]
              responses := s.responses ++ [statusWord (if r = .ok then .ok else .transport)] }

/-- R135: the frame has `4 + 4*n + 4*h + ceil(n/16)` bytes. -/
def Obligations.FrameLengthFormula : Prop :=
  ∀ (s : State) (f : List Byte), s.buildFrame = .ok f →
    f.length = 4 + 4 * s.numleds.toNat + 4 * s.hasreset.toNat + (s.numleds.toNat + 15) / 16

/-- R139, R140: CLEAR, in its encoding, makes every pixel `[0xE0 | GB, 0, 0, 0]` and sends that frame; the buffer stays
blanked when the write fails; NOTREADY in UNCONFIGURED. -/
def Obligations.ClearBlanksAndSends : Prop :=
  decodeCommand 0x9000000000000000 = .ok .clear ∧
    ∀ s : State,
      (s.mode = .unconfigured → exec .clear s = .next (s.respond .notready)) ∧
        ∀ (r : TResult) (rest : List TResult), s.mode = .ready → s.order.legal = true → s.answers = r :: rest →
          ∃ t px, exec .clear s = .next t ∧ blackPixels s.numleds.toNat s.gb px ∧
            holdsBytes t.buf (4 * s.numleds.toNat) px ∧
            (∀ a, 4 * s.numleds.toNat ≤ a → Memory.read t.buf a = Memory.read s.buf a) ∧
            t = { s with
              buf := t.buf
              answers := rest
              waiting := none
              frame := []
              th := s.th ++ [.write (frameAround s.numleds.toNat s.hasreset px) r]
              responses := s.responses ++ [statusWord (if r = .ok then .ok else .transport)] }

/-- R159: TEARDOWN, in its encoding, is a no-op in UNCONFIGURED; in READY it blanks, sends that frame, releases the
transport and goes to UNCONFIGURED whatever the write's result; nothing is said of the registers and the buffer, which are
then undefined. -/
def Obligations.TeardownBlanksFlushesReleases : Prop :=
  decodeCommand 0xA000000000000000 = .ok .teardown ∧
    ∀ s : State,
      (s.mode = .unconfigured → exec .teardown s = .next (s.respond .ok)) ∧
        ∀ (r : TResult) (rest : List TResult), s.mode = .ready → s.order.legal = true → s.answers = r :: rest →
          ∃ t px, exec .teardown s = .next t ∧ blackPixels s.numleds.toNat s.gb px ∧ t.mode = .unconfigured ∧
            t.th = s.th ++ [.write (frameAround s.numleds.toNat s.hasreset px) r, .release] ∧
            t.responses = s.responses ++ [statusWord (if r = .ok then .ok else .transport)] ∧
            t.answers = rest ∧ t.waiting = none ∧ t.frame = [] ∧ t.inbox = s.inbox ∧ t.params = s.params

/-- With no answer there, an operation that has called the transport waits: no response, nothing in the history, the
words still to come untouched (43_frame_emit.md section 2; that the answers are a list, and that T_acquire may wait too,
is the model's, log 6 and log 7). -/
def Obligations.UnansweredCallWaits : Prop :=
  ∀ s : State, s.answers = [] →
    (s.mode = .ready → s.held →
        ∃ t, exec .showFrame s = .next t ∧ t = { s with waiting := some .showFrame, frame := t.frame }) ∧
      (s.mode = .ready →
        (∃ t, exec .clear s = .next t ∧ t = { s with waiting := some .clear, frame := t.frame, buf := t.buf }) ∧
          ∃ t, exec .teardown s = .next t ∧ t = { s with waiting := some .teardown, frame := t.frame, buf := t.buf }) ∧
      (s.mode = .unconfigured → ∀ n tg g h, 1 ≤ n.toNat → n.toNat ≤ 1024 → g.toNat ≤ 31 →
        exec (.config n tg g h 1) s = .next { s with waiting := some (.acquire n tg g h) })

/-- An operation that waits and is answered later does what it does when it is answered at once
(43_frame_emit.md section 2; that the answers are a list is the model's, log 6 and log 7). -/
def Obligations.AnswerLaterIsAnswerAtOnce : Prop :=
  ∀ (i : Instr) (s u : State) (r : TResult) (rest : List TResult), s.waiting = none →
    (∀ evs, s.inbox ≠ .reset :: evs) → exec i { s with answers := [] } = .next u → u.waiting ≠ none →
    step { u with answers := r :: rest } = exec i { s with answers := r :: rest }

/-- Each wire frame puts its own bytes: the start frame begins the transaction, the others come after what is there
(30_encoding.md section 4; that a frame can run on its own is the model's, log 8). -/
def Obligations.WireFramesPutTheirBytes : Prop :=
  ∀ (s : State) (q : BitVec 5) (x y z : Byte),
    exec .startFrame s = .next { s with frame := [0, 0, 0, 0] } ∧
      exec (.pixelFrame q x y z) s = .next { s with frame := s.frame ++ [0xE0#8 ||| q.setWidth 8, x, y, z] } ∧
      exec .resetFrame s = .next { s with frame := s.frame ++ [0, 0, 0, 0] } ∧
      exec .endPadByte s = .next { s with frame := s.frame ++ [0] }

/-- The frame SHOW sends is what its wire frames put, one after the other in the order of 43_frame_emit.md section 1, from
whatever state they start in. That a wire frame can run on its own is the model's choice (log 8). -/
def Obligations.FrameIsItsWireFramesInOrder : Prop :=
  ∀ (s u : State) (px f : List Byte), s.Inv → s.mode = .ready → holdsBytes s.buf (4 * s.numleds.toNat) px →
    s.buildFrame = .ok f → runAll (s.wireFrames px) u = .next { u with frame := f }

/-- On the wire the bytes go in list order and each byte goes most significant bit first (20_memory.md section 2). -/
def Obligations.WireBitsGoMsbFirst : Prop :=
  ∀ (f : List Byte), (wireBits f).length = 8 * f.length ∧
    ∀ i < f.length, ∀ k < 8, (wireBits f)[8 * i + k]? = (f[i]?).map (fun b => b.getLsbD (7 - k))

/-! ## Construction, global brightness, mode -/

/-- R153: CONFIG with legal operands and a transport that acquires sets the four registers, makes every pixel
`E0 00 00 00` and no other byte, and goes to READY. -/
def Obligations.ConfigConstructs : Prop :=
  ∀ (s : State) (n : BitVec 16) (tg g : BitVec 8) (h : BitVec 1) (rest : List TResult), s.mode = .unconfigured →
    1 ≤ n.toNat → n.toNat ≤ 1024 → g.toNat ≤ 31 → s.answers = .ok :: rest →
    ∃ t, exec (.config n tg g h 1) s = .next t ∧ t.numleds.toNat = n.toNat ∧ t.gb.toNat = g.toNat ∧
      t = { s with
        mode := .ready
        numleds := t.numleds
        order := orderOfCode s.params.orderMap tg
        gb := t.gb
        hasreset := h
        buf := t.buf
        waiting := none
        answers := rest
        th := s.th ++ [.acquire .ok]
        responses := s.responses ++ [statusWord .ok] } ∧
      (∀ i < n.toNat, Memory.read t.buf (4 * i) = some 0xE0 ∧ Memory.read t.buf (4 * i + 1) = some 0 ∧
        Memory.read t.buf (4 * i + 2) = some 0 ∧ Memory.read t.buf (4 * i + 3) = some 0) ∧
      ∀ a, 4 * n.toNat ≤ a → Memory.read t.buf a = none

/-- R151: CONFIG's three checks in their order, each before any transport call and leaving all else as it was; the tag is
never an error: whatever it is, operands that pass the three checks go on to the transport call. -/
def Obligations.ConfigValidatesBeforeTransport : Prop :=
  ∀ (s : State) (n : BitVec 16) (tg g : BitVec 8) (h k : BitVec 1), s.mode = .unconfigured →
    (n.toNat < 1 ∨ 1024 < n.toNat → exec (.config n tg g h k) s = .next (s.respond .cfgLedcount)) ∧
      (1 ≤ n.toNat → n.toNat ≤ 1024 → k = 0 → exec (.config n tg g h k) s = .next (s.respond .cfgBuspin)) ∧
      (1 ≤ n.toNat → n.toNat ≤ 1024 → k = 1 → 31 < g.toNat →
        exec (.config n tg g h k) s = .next (s.respond .cfgBrightness)) ∧
      (1 ≤ n.toNat → n.toNat ≤ 1024 → k = 1 → g.toNat ≤ 31 →
        exec (.config n tg g h k) s = .next (s.callTransport (.acquire n tg g h)))

/-- R152: T_acquire's result stands in TH, and when it is Err CONFIG answers TRANSPORT and stays UNCONFIGURED with nothing
else changed. -/
def Obligations.ConfigReportsFailedAcquire : Prop :=
  ∀ (s : State) (n : BitVec 16) (tg g : BitVec 8) (h : BitVec 1) (r : TResult) (rest : List TResult),
    s.mode = .unconfigured → 1 ≤ n.toNat → n.toNat ≤ 1024 → g.toNat ≤ 31 → s.answers = r :: rest →
    ∃ t, exec (.config n tg g h 1) s = .next t ∧ t.th = s.th ++ [.acquire r] ∧
      (r = .err →
        t = { s with
          answers := rest
          waiting := none
          th := s.th ++ [.acquire .err]
          responses := s.responses ++ [statusWord .transport] })

/-- Codes 0 to 5 name the six orders in the sequence rgb, rbg, grb, gbr, brg, bgr, and CONFIG treats every other code
exactly as code 0 (30_encoding.md section 2). The last clause says so also of a CONFIG that waits for T_acquire; that
T_acquire can be waited for is the model's choice (log 6). -/
def Obligations.UnrecognisedTagIsRgb : Prop :=
  (∀ m : OrderMap, orderOfCode m 0 = m.rgb ∧ orderOfCode m 1 = m.rbg ∧ orderOfCode m 2 = m.grb ∧
      orderOfCode m 3 = m.gbr ∧ orderOfCode m 4 = m.brg ∧ orderOfCode m 5 = m.bgr) ∧
    ∀ (s : State) (n : BitVec 16) (tg g : BitVec 8) (h k : BitVec 1), 6 ≤ tg.toNat →
      (s.answers ≠ [] → exec (.config n tg g h k) s = exec (.config n 0 g h k) s) ∧
        ∀ r : TResult, s.complete (.acquire n tg g h) r = s.complete (.acquire n 0 g h) r

/-- R156, R157, R158: SETGB, in its encoding, sets GB alone, and refuses a value above 31 with GB as it was; NOTREADY in
UNCONFIGURED. -/
def Obligations.SetgbSetsBrightnessAlone : Prop :=
  ∀ (s : State) (val : BitVec 8),
    decodeCommand (7#4 ++ 0#40 ++ val ++ 0#12) = .ok (.setgb val) ∧
      (s.mode = .unconfigured → exec (.setgb val) s = .next (s.respond .notready)) ∧
      (s.mode = .ready →
        (val.toNat ≤ 31 → exec (.setgb val) s =
            .next { s with gb := BitVec.ofNat 5 val.toNat, responses := s.responses ++ [statusWord .ok] }) ∧
          (31 < val.toNat → exec (.setgb val) s = .next (s.respond .cfgBrightness)))

/-- R161, R178: in UNCONFIGURED eight commands are refused with NOTREADY and TEARDOWN is a no-op; in READY CONFIG is
refused with ALREADY; an illegal word is refused with ILLEGAL in either mode. Refused: nothing changes but the response. -/
def Obligations.ModeGatesCommands : Prop :=
  ∀ s : State,
    (s.mode = .unconfigured →
        (∀ i : Instr, ((∃ idx r g b, i = .set idx r g b) ∨ (∃ idx r g b pct, i = .setb idx r g b pct) ∨
          (∃ idx c pct, i = .setp idx c pct) ∨ (∃ idx, i = .get idx) ∨ (∃ pos, i = .rot pos) ∨
          (∃ val, i = .setgb val) ∨ i = .showFrame ∨ i = .clear) → exec i s = .next (s.respond .notready)) ∧
          exec .teardown s = .next (s.respond .ok)) ∧
      (s.mode = .ready → ∀ n tg g h k, exec (.config n tg g h k) s = .next (s.respond .already)) ∧
      ∀ (w : CmdWord) (e : DecodeError) (rest : List Event), s.waiting = none → s.inbox = .word (.command w) :: rest →
        decodeCommand w = .error e →
        ∃ t, step s = .next t ∧
          t = { s with
            inbox := rest
            commands := t.commands
            responses := s.responses ++ [statusWord .illegal] }

/-! ## Responses and errors -/

/-- R66: each field of the response stands in its place, and only GET ever sets a data field. -/
def Obligations.ResponseLayout : Prop :=
  (∀ (st : Status) (v : BitVec 1) (r g b : Byte) (p : BitVec 12),
      let w := responseWord st v r g b p
      field w 60 4 = st.code ∧ field w 59 1 = v ∧ field w 44 15 = 0 ∧ field w 36 8 = r ∧ field w 28 8 = g ∧
        field w 20 8 = b ∧ field w 8 12 = p ∧ field w 0 8 = 0) ∧
    ∀ (i : Instr) (s t : State), (∀ idx, i ≠ .get idx) → exec i s = .next t →
      t.responses = s.responses ∨ ∃ st, t.responses = s.responses ++ [responseWord st 0 0 0 0 0]

/-- For every status other than OK and TRANSPORT no state has changed and no transport call was made
(60_exceptions.md section 3). -/
def Obligations.ErrorsArePrecise : Prop :=
  ∀ (i : Instr) (s t : State) (st : Status), st ≠ .ok → st ≠ .transport → exec i s = .next t →
    t.responses = s.responses ++ [statusWord st] → t = { s with responses := t.responses }

/-- SET, SETB, SETP, GET, ROT and SETGB make no transport call and never answer TRANSPORT (60_exceptions.md section 1). -/
def Obligations.PixelCommandsMakeNoTransportCall : Prop :=
  ∀ (i : Instr) (s t : State), ((∃ idx r g b, i = .set idx r g b) ∨ (∃ idx r g b pct, i = .setb idx r g b pct) ∨
      (∃ idx c pct, i = .setp idx c pct) ∨ (∃ idx, i = .get idx) ∨ (∃ pos, i = .rot pos) ∨ ∃ val, i = .setgb val) →
    exec i s = .next t →
    t.th = s.th ∧ t.answers = s.answers ∧ t.waiting = s.waiting ∧ t.frame = s.frame ∧ t.mode = s.mode ∧
      ∃ w, t.responses = s.responses ++ [w] ∧ field w 60 4 ≠ Status.transport.code

/-! ## Whole-machine rules -/

/-- While LFE stays READY no step changes NUMLEDS, ORDER or HASRESET ("length is immutable after construction",
10_state.md section 2). -/
def Obligations.ConstructionIsImmutable : Prop :=
  ∀ s t : State, s.Inv → step s = .next t → s.mode = .ready → t.mode = .ready →
    t.numleds = s.numleds ∧ t.order = s.order ∧ t.hasreset = s.hasreset

/-- GET, SHOW and SETGB leave every byte of the buffer as it was (20_memory.md section 3), and so do the wire frames; that
a wire frame runs on its own and changes nothing but the frame is the model's choice (log 8). -/
def Obligations.ReadersLeaveBuffer : Prop :=
  ∀ (i : Instr) (s t : State), ((∃ idx, i = .get idx) ∨ i = .showFrame ∨ (∃ val, i = .setgb val) ∨ i = .startFrame ∨
      (∃ q x y z, i = .pixelFrame q x y z) ∨ i = .resetFrame ∨ i = .endPadByte) →
    exec i s = .next t → ∀ a, Memory.read t.buf a = Memory.read s.buf a

/-- No instruction reads the observation, which is the commands taken, the responses given and the transport history: with
another one it leaves the same state outside the observation, adds the same responses and the same transport calls at the
end of it, and takes nothing away (00_scope.md section 5; 10_state.md section 4). That they stand beside LFE's record in the step's state is the model's choice (log 4, log 22). -/
def Obligations.ObservationsAreNotRead : Prop :=
  ∀ (i : Instr) (s t : State) (o : Observed), exec i s = .next t →
    ∃ rs cs, t.toObserved = ⟨s.commands, s.responses ++ rs, s.th ++ cs⟩ ∧
      exec i { s with toObserved := o } =
        .next { t with toObserved := ⟨o.commands, o.responses ++ rs, o.th ++ cs⟩ }

/-- No step changes ORDER_MAP or ROT_DIR: they are parameters (00_scope.md section 4; 10_state.md section 4). That they stand
beside LFE's record in the step's state is the model's choice (log 2, log 3). -/
def Obligations.ParametersNeverChange : Prop :=
  ∀ s t : State, step s = .next t → t.params = s.params

/-- No instruction, in any state, forms an address outside the buffer (20_memory.md section 3). -/
def Obligations.NoInstructionLeavesBuffer : Prop :=
  ∀ (i : Instr) (s : State) (a : Nat), exec i s ≠ .fault (.outsideBuffer a)

/-- The buffer's list of cells keeps its canonical form. -/
def Obligations.StepKeepsMemoryCanonical : Prop :=
  ∀ s t : State, Memory.wf s.buf → step s = .next t → Memory.wf t.buf

/-- The invariant holds at reset, under the default parameters and under any legal ones (70_reset_and_hazards.md section 1).
It rests on the values the model chose for reset (log 1, log 2, log 3). -/
def Obligations.ResetHasInvariant : Prop :=
  State.reset.Inv ∧ ∀ p : Params, p.legal = true → (State.resetUnder p).Inv

/-- Every step keeps the invariant: a legal ORDER, and in READY a legal LED count, a whole buffer and the marker in every
header; an operation that waits is one that may (10_state.md sections 2 and 3). -/
def Obligations.StepKeepsInvariant : Prop :=
  ∀ s t : State, s.Inv → step s = .next t → t.Inv

/-- From a state of the invariant no step faults: no read of an unwritten pixel is possible
(70_reset_and_hazards.md section 2). -/
def Obligations.InvariantStatesNeverFault : Prop :=
  ∀ (s : State) (f : Fault), s.Inv → step s ≠ .fault f

/-- The transport is held exactly when LFE is READY, and every step keeps that (44_config_control.md section 3). -/
def Obligations.TransportHeldExactlyWhenReady : Prop :=
  ∀ s t : State, (transportHeld s.th false = true ↔ s.mode = .ready) → step s = .next t →
    (transportHeld t.th false = true ↔ t.mode = .ready)

/-- Every frame handed to the transport is a well-formed transaction whose every pixel frame begins with the marker, and
every step keeps that (10_state.md section 3, 30_encoding.md section 4). -/
def Obligations.EveryWriteIsATransaction : Prop :=
  ∀ s t : State, s.Inv → allTransactions s.th → step s = .next t → allTransactions t.th

/-! ## How a run ends -/

/-- A TEARDOWN in READY whose write is answered, as the last command of the run, ends it orderly, whatever the write's
result (70_reset_and_hazards.md section 5). That the commands taken are recorded (log 22), and that a reset coming next ends
the run as nothing coming does (log 23), is the model's choice. -/
def Obligations.TeardownEndsRunOrderly : Prop :=
  ∀ (s : State) (w : CmdWord) (evs : List Event) (r : TResult) (rest : List TResult), s.mode = .ready →
    s.waiting = none → s.order.legal = true → encode .teardown = .command w → s.inbox = .word (.command w) :: evs →
    evs.head? = none ∨ evs.head? = some .reset → s.answers = r :: rest →
    ∃ t, step s = .next t ∧ t.orderlyEnded

/-- When the last command of the run is a TEARDOWN that no longer waits for its write, MODE is UNCONFIGURED, and every step
keeps that (70_reset_and_hazards.md section 5; 44_config_control.md section 3; log 22). -/
def Obligations.TeardownThatRespondedUnconfigures : Prop :=
  ∀ s t : State, s.teardownEnds → step s = .next t → t.teardownEnds

/-- LFE itself never ends a run: a state that the invariant allows, in which no word is refused at the wire port, always has
a next step (70_reset_and_hazards.md section 5; wire words are the model's, log 8, log 17). -/
def Obligations.RunNeverHalts : Prop :=
  ∀ s : State, s.Inv → (∀ p rest, s.inbox = .word p :: rest → ∃ w, p = .command w) → ∃ t, step s = .next t

/-- A hung run stays as it is: once a write waits with no answer left and the next event is not reset, a step changes
nothing (70_reset_and_hazards.md sections 3 and 5; the lists of events and of answers are the model's choice, log 5, log 6
and log 7). -/
def Obligations.HungRunStaysHung : Prop :=
  ∀ s : State, s.hung → step s = .next s
end

