-- ==== Sys2Proof/Laws/Decode.lean ====
section
/-! SUPPORT. Bits of a field, and what a decoder's answer says of the word. -/

namespace Sys2Proof

/-- The bits of a field are the word's bits from its low end. -/
@[simp] theorem getLsbD_field {w : Nat} (v : BitVec w) (lo width i : Nat) :
    (field v lo width).getLsbD i = (decide (i < width) && v.getLsbD (lo + i)) := by
  simp [field]

/-- A field as a number. -/
theorem toNat_field {w : Nat} (v : BitVec w) (lo width : Nat) :
    (field v lo width).toNat = v.toNat / 2 ^ lo % 2 ^ width := by
  simp [field, Nat.shiftRight_eq_div_pow]

/-- A command decodes exactly when its operation has a format, its reserved bits are zero, and the instruction is the one its
fields give. -/
theorem decodeCommand_eq_ok {w : CmdWord} {i : Instr} :
    decodeCommand w = .ok i ↔ (∃ m, reservedMask (opOf w) = some m ∧ w &&& m = 0) ∧ operandsOf w = some i := by
  unfold decodeCommand
  cases reservedMask (opOf w) with
  | none => simp
  | some m =>
    cases operandsOf w with
    | none => simp
    | some j =>
      by_cases h : w &&& m = 0
      · simp [h]
      · simp only [Option.some.injEq, exists_eq_left', h, false_and, iff_false]
        rw [if_neg id]
        exact fun h' => nomatch h'

/-- A command word is rejected for its operation code or its reserved bits, never as a wire frame. -/
theorem decodeCommand_error {w : CmdWord} {e : DecodeError} (h : decodeCommand w = .error e) : e ≠ .noSuchFrame := by
  rintro rfl
  unfold decodeCommand at h
  split at h
  · split at h <;> cases h
  · cases h

/-- A wire word is rejected only as no frame. -/
theorem decodeFrame_error {first : Bool} {w : FrameWord} {e : DecodeError} (h : decodeFrame first w = .error e) :
    e = .noSuchFrame := by
  unfold decodeFrame at h
  split at h
  · cases h
  · split at h <;> cases h
    rfl

/-- A padding byte is rejected only as no frame. -/
theorem decodePad_error {w : Byte} {e : DecodeError} (h : decodePad w = .error e) : e = .noSuchFrame := by
  unfold decodePad at h
  split at h <;> cases h
  rfl

end Sys2Proof
end

