-- ==== Sys2Proof/Laws/State.lean ====
section
/-! SUPPORT. What each update of the state leaves in each field: one lemma per field per update, so that no proof unfolds a
record update. -/

namespace Sys2Proof.Machine

variable (s : State)

/-! ## give -/

@[simp] theorem State.give_mode (w : CmdWord) : (s.give w).mode = s.mode := rfl
@[simp] theorem State.give_numleds (w : CmdWord) : (s.give w).numleds = s.numleds := rfl
@[simp] theorem State.give_order (w : CmdWord) : (s.give w).order = s.order := rfl
@[simp] theorem State.give_gb (w : CmdWord) : (s.give w).gb = s.gb := rfl
@[simp] theorem State.give_hasreset (w : CmdWord) : (s.give w).hasreset = s.hasreset := rfl
@[simp] theorem State.give_buf (w : CmdWord) : (s.give w).buf = s.buf := rfl
@[simp] theorem State.give_waiting (w : CmdWord) : (s.give w).waiting = s.waiting := rfl
@[simp] theorem State.give_frame (w : CmdWord) : (s.give w).frame = s.frame := rfl
@[simp] theorem State.give_inbox (w : CmdWord) : (s.give w).inbox = s.inbox := rfl
@[simp] theorem State.give_answers (w : CmdWord) : (s.give w).answers = s.answers := rfl
@[simp] theorem State.give_commands (w : CmdWord) : (s.give w).commands = s.commands := rfl
@[simp] theorem State.give_responses (w : CmdWord) : (s.give w).responses = s.responses ++ [w] := rfl
@[simp] theorem State.give_th (w : CmdWord) : (s.give w).th = s.th := rfl
@[simp] theorem State.give_free (w : CmdWord) : (s.give w).free = s.free := rfl
@[simp] theorem State.give_params (w : CmdWord) : (s.give w).params = s.params := rfl

/-! ## respond -/

@[simp] theorem State.respond_mode (st : Status) : (s.respond st).mode = s.mode := rfl
@[simp] theorem State.respond_numleds (st : Status) : (s.respond st).numleds = s.numleds := rfl
@[simp] theorem State.respond_order (st : Status) : (s.respond st).order = s.order := rfl
@[simp] theorem State.respond_gb (st : Status) : (s.respond st).gb = s.gb := rfl
@[simp] theorem State.respond_hasreset (st : Status) : (s.respond st).hasreset = s.hasreset := rfl
@[simp] theorem State.respond_buf (st : Status) : (s.respond st).buf = s.buf := rfl
@[simp] theorem State.respond_waiting (st : Status) : (s.respond st).waiting = s.waiting := rfl
@[simp] theorem State.respond_frame (st : Status) : (s.respond st).frame = s.frame := rfl
@[simp] theorem State.respond_inbox (st : Status) : (s.respond st).inbox = s.inbox := rfl
@[simp] theorem State.respond_answers (st : Status) : (s.respond st).answers = s.answers := rfl
@[simp] theorem State.respond_commands (st : Status) : (s.respond st).commands = s.commands := rfl
@[simp] theorem State.respond_responses (st : Status) : (s.respond st).responses = s.responses ++ [statusWord st] := rfl
@[simp] theorem State.respond_th (st : Status) : (s.respond st).th = s.th := rfl
@[simp] theorem State.respond_free (st : Status) : (s.respond st).free = s.free := rfl
@[simp] theorem State.respond_params (st : Status) : (s.respond st).params = s.params := rfl

/-! ## beginFrame -/

@[simp] theorem State.beginFrame_mode : (s.beginFrame).mode = s.mode := rfl
@[simp] theorem State.beginFrame_numleds : (s.beginFrame).numleds = s.numleds := rfl
@[simp] theorem State.beginFrame_order : (s.beginFrame).order = s.order := rfl
@[simp] theorem State.beginFrame_gb : (s.beginFrame).gb = s.gb := rfl
@[simp] theorem State.beginFrame_hasreset : (s.beginFrame).hasreset = s.hasreset := rfl
@[simp] theorem State.beginFrame_buf : (s.beginFrame).buf = s.buf := rfl
@[simp] theorem State.beginFrame_waiting : (s.beginFrame).waiting = s.waiting := rfl
@[simp] theorem State.beginFrame_frame : (s.beginFrame).frame = startBytes := rfl
@[simp] theorem State.beginFrame_inbox : (s.beginFrame).inbox = s.inbox := rfl
@[simp] theorem State.beginFrame_answers : (s.beginFrame).answers = s.answers := rfl
@[simp] theorem State.beginFrame_commands : (s.beginFrame).commands = s.commands := rfl
@[simp] theorem State.beginFrame_responses : (s.beginFrame).responses = s.responses := rfl
@[simp] theorem State.beginFrame_th : (s.beginFrame).th = s.th := rfl
@[simp] theorem State.beginFrame_free : (s.beginFrame).free = s.free := rfl
@[simp] theorem State.beginFrame_params : (s.beginFrame).params = s.params := rfl

/-! ## putFrame -/

@[simp] theorem State.putFrame_mode (bs : List Byte) : (s.putFrame bs).mode = s.mode := rfl
@[simp] theorem State.putFrame_numleds (bs : List Byte) : (s.putFrame bs).numleds = s.numleds := rfl
@[simp] theorem State.putFrame_order (bs : List Byte) : (s.putFrame bs).order = s.order := rfl
@[simp] theorem State.putFrame_gb (bs : List Byte) : (s.putFrame bs).gb = s.gb := rfl
@[simp] theorem State.putFrame_hasreset (bs : List Byte) : (s.putFrame bs).hasreset = s.hasreset := rfl
@[simp] theorem State.putFrame_buf (bs : List Byte) : (s.putFrame bs).buf = s.buf := rfl
@[simp] theorem State.putFrame_waiting (bs : List Byte) : (s.putFrame bs).waiting = s.waiting := rfl
@[simp] theorem State.putFrame_frame (bs : List Byte) : (s.putFrame bs).frame = s.frame ++ bs := rfl
@[simp] theorem State.putFrame_inbox (bs : List Byte) : (s.putFrame bs).inbox = s.inbox := rfl
@[simp] theorem State.putFrame_answers (bs : List Byte) : (s.putFrame bs).answers = s.answers := rfl
@[simp] theorem State.putFrame_commands (bs : List Byte) : (s.putFrame bs).commands = s.commands := rfl
@[simp] theorem State.putFrame_responses (bs : List Byte) : (s.putFrame bs).responses = s.responses := rfl
@[simp] theorem State.putFrame_th (bs : List Byte) : (s.putFrame bs).th = s.th := rfl
@[simp] theorem State.putFrame_free (bs : List Byte) : (s.putFrame bs).free = s.free := rfl
@[simp] theorem State.putFrame_params (bs : List Byte) : (s.putFrame bs).params = s.params := rfl

/-! ## logCall -/

@[simp] theorem State.logCall_mode (c : Call) : (s.logCall c).mode = s.mode := rfl
@[simp] theorem State.logCall_numleds (c : Call) : (s.logCall c).numleds = s.numleds := rfl
@[simp] theorem State.logCall_order (c : Call) : (s.logCall c).order = s.order := rfl
@[simp] theorem State.logCall_gb (c : Call) : (s.logCall c).gb = s.gb := rfl
@[simp] theorem State.logCall_hasreset (c : Call) : (s.logCall c).hasreset = s.hasreset := rfl
@[simp] theorem State.logCall_buf (c : Call) : (s.logCall c).buf = s.buf := rfl
@[simp] theorem State.logCall_waiting (c : Call) : (s.logCall c).waiting = s.waiting := rfl
@[simp] theorem State.logCall_frame (c : Call) : (s.logCall c).frame = s.frame := rfl
@[simp] theorem State.logCall_inbox (c : Call) : (s.logCall c).inbox = s.inbox := rfl
@[simp] theorem State.logCall_answers (c : Call) : (s.logCall c).answers = s.answers := rfl
@[simp] theorem State.logCall_commands (c : Call) : (s.logCall c).commands = s.commands := rfl
@[simp] theorem State.logCall_responses (c : Call) : (s.logCall c).responses = s.responses := rfl
@[simp] theorem State.logCall_th (c : Call) : (s.logCall c).th = s.th ++ [c] := rfl
@[simp] theorem State.logCall_free (c : Call) : (s.logCall c).free = s.free := rfl
@[simp] theorem State.logCall_params (c : Call) : (s.logCall c).params = s.params := rfl

/-! ## endWrite -/

@[simp] theorem State.endWrite_mode (r : TResult) : (s.endWrite r).mode = s.mode := rfl
@[simp] theorem State.endWrite_numleds (r : TResult) : (s.endWrite r).numleds = s.numleds := rfl
@[simp] theorem State.endWrite_order (r : TResult) : (s.endWrite r).order = s.order := rfl
@[simp] theorem State.endWrite_gb (r : TResult) : (s.endWrite r).gb = s.gb := rfl
@[simp] theorem State.endWrite_hasreset (r : TResult) : (s.endWrite r).hasreset = s.hasreset := rfl
@[simp] theorem State.endWrite_buf (r : TResult) : (s.endWrite r).buf = s.buf := rfl
@[simp] theorem State.endWrite_waiting (r : TResult) : (s.endWrite r).waiting = s.waiting := rfl
@[simp] theorem State.endWrite_frame (r : TResult) : (s.endWrite r).frame = [] := rfl
@[simp] theorem State.endWrite_inbox (r : TResult) : (s.endWrite r).inbox = s.inbox := rfl
@[simp] theorem State.endWrite_answers (r : TResult) : (s.endWrite r).answers = s.answers := rfl
@[simp] theorem State.endWrite_commands (r : TResult) : (s.endWrite r).commands = s.commands := rfl
@[simp] theorem State.endWrite_responses (r : TResult) : (s.endWrite r).responses = s.responses := rfl
@[simp] theorem State.endWrite_th (r : TResult) : (s.endWrite r).th = s.th ++ [.write s.frame r] := rfl
@[simp] theorem State.endWrite_free (r : TResult) : (s.endWrite r).free = s.free := rfl
@[simp] theorem State.endWrite_params (r : TResult) : (s.endWrite r).params = s.params := rfl

/-! ## undefine -/

@[simp] theorem State.undefine_mode : (s.undefine).mode = .unconfigured := rfl
@[simp] theorem State.undefine_numleds : (s.undefine).numleds = Config.freeNumleds s.free := rfl
@[simp] theorem State.undefine_order : (s.undefine).order = legalOrder (Config.freeOrderIndex s.free) := rfl
@[simp] theorem State.undefine_gb : (s.undefine).gb = Config.freeGb s.free := rfl
@[simp] theorem State.undefine_hasreset : (s.undefine).hasreset = Config.freeHasreset s.free := rfl
@[simp] theorem State.undefine_buf : (s.undefine).buf = [] := rfl
@[simp] theorem State.undefine_waiting : (s.undefine).waiting = s.waiting := rfl
@[simp] theorem State.undefine_frame : (s.undefine).frame = s.frame := rfl
@[simp] theorem State.undefine_inbox : (s.undefine).inbox = s.inbox := rfl
@[simp] theorem State.undefine_answers : (s.undefine).answers = s.answers := rfl
@[simp] theorem State.undefine_commands : (s.undefine).commands = s.commands := rfl
@[simp] theorem State.undefine_responses : (s.undefine).responses = s.responses := rfl
@[simp] theorem State.undefine_th : (s.undefine).th = s.th := rfl
@[simp] theorem State.undefine_free : (s.undefine).free = s.free + 1 := rfl
@[simp] theorem State.undefine_params : (s.undefine).params = s.params := rfl

/-! ## construct -/

@[simp] theorem State.construct_mode (n : BitVec 16) (tg g : BitVec 8) (h : BitVec 1) : (s.construct n tg g h).mode = .ready := rfl
@[simp] theorem State.construct_numleds (n : BitVec 16) (tg g : BitVec 8) (h : BitVec 1) : (s.construct n tg g h).numleds = field n 0 11 := rfl
@[simp] theorem State.construct_order (n : BitVec 16) (tg g : BitVec 8) (h : BitVec 1) : (s.construct n tg g h).order = orderOfCode s.params.orderMap tg := rfl
@[simp] theorem State.construct_gb (n : BitVec 16) (tg g : BitVec 8) (h : BitVec 1) : (s.construct n tg g h).gb = field g 0 5 := rfl
@[simp] theorem State.construct_hasreset (n : BitVec 16) (tg g : BitVec 8) (h : BitVec 1) : (s.construct n tg g h).hasreset = h := rfl
@[simp] theorem State.construct_buf (n : BitVec 16) (tg g : BitVec 8) (h : BitVec 1) : (s.construct n tg g h).buf = Memory.ofBytes 0 (repeatPixel n.toNat [Config.initHdr, 0, 0, 0]) := rfl
@[simp] theorem State.construct_waiting (n : BitVec 16) (tg g : BitVec 8) (h : BitVec 1) : (s.construct n tg g h).waiting = s.waiting := rfl
@[simp] theorem State.construct_frame (n : BitVec 16) (tg g : BitVec 8) (h : BitVec 1) : (s.construct n tg g h).frame = s.frame := rfl
@[simp] theorem State.construct_inbox (n : BitVec 16) (tg g : BitVec 8) (h : BitVec 1) : (s.construct n tg g h).inbox = s.inbox := rfl
@[simp] theorem State.construct_answers (n : BitVec 16) (tg g : BitVec 8) (h : BitVec 1) : (s.construct n tg g h).answers = s.answers := rfl
@[simp] theorem State.construct_commands (n : BitVec 16) (tg g : BitVec 8) (h : BitVec 1) : (s.construct n tg g h).commands = s.commands := rfl
@[simp] theorem State.construct_responses (n : BitVec 16) (tg g : BitVec 8) (h : BitVec 1) : (s.construct n tg g h).responses = s.responses := rfl
@[simp] theorem State.construct_th (n : BitVec 16) (tg g : BitVec 8) (h : BitVec 1) : (s.construct n tg g h).th = s.th := rfl
@[simp] theorem State.construct_free (n : BitVec 16) (tg g : BitVec 8) (h : BitVec 1) : (s.construct n tg g h).free = s.free := rfl
@[simp] theorem State.construct_params (n : BitVec 16) (tg g : BitVec 8) (h : BitVec 1) : (s.construct n tg g h).params = s.params := rfl

/-! ## assertReset, from `undefine` -/

@[simp] theorem State.assertReset_mode : s.assertReset.mode = .unconfigured := rfl
@[simp] theorem State.assertReset_order : s.assertReset.order = legalOrder (Config.freeOrderIndex s.free) := rfl
@[simp] theorem State.assertReset_buf : s.assertReset.buf = [] := rfl
@[simp] theorem State.assertReset_waiting : s.assertReset.waiting = none := rfl
@[simp] theorem State.assertReset_frame : s.assertReset.frame = [] := rfl
@[simp] theorem State.assertReset_inbox : s.assertReset.inbox = s.inbox := rfl
@[simp] theorem State.assertReset_answers : s.assertReset.answers = s.answers := rfl
@[simp] theorem State.assertReset_commands : s.assertReset.commands = [] := rfl
@[simp] theorem State.assertReset_responses : s.assertReset.responses = [] := rfl
@[simp] theorem State.assertReset_th : s.assertReset.th = [] := rfl
@[simp] theorem State.assertReset_params : s.assertReset.params = s.params := rfl

/-! ## record -/

@[simp] theorem State.record_mode (p : PortWord) : (s.record p).mode = s.mode := rfl
@[simp] theorem State.record_numleds (p : PortWord) : (s.record p).numleds = s.numleds := rfl
@[simp] theorem State.record_order (p : PortWord) : (s.record p).order = s.order := rfl
@[simp] theorem State.record_gb (p : PortWord) : (s.record p).gb = s.gb := rfl
@[simp] theorem State.record_hasreset (p : PortWord) : (s.record p).hasreset = s.hasreset := rfl
@[simp] theorem State.record_buf (p : PortWord) : (s.record p).buf = s.buf := rfl
@[simp] theorem State.record_waiting (p : PortWord) : (s.record p).waiting = s.waiting := rfl
@[simp] theorem State.record_frame (p : PortWord) : (s.record p).frame = s.frame := rfl
@[simp] theorem State.record_inbox (p : PortWord) : (s.record p).inbox = s.inbox := rfl
@[simp] theorem State.record_answers (p : PortWord) : (s.record p).answers = s.answers := rfl
@[simp] theorem State.record_commands (p : PortWord) : (s.record p).commands = s.commands ++ commandsOf p := rfl
@[simp] theorem State.record_responses (p : PortWord) : (s.record p).responses = s.responses := rfl
@[simp] theorem State.record_th (p : PortWord) : (s.record p).th = s.th := rfl
@[simp] theorem State.record_free (p : PortWord) : (s.record p).free = s.free := rfl
@[simp] theorem State.record_params (p : PortWord) : (s.record p).params = s.params := rfl

end Sys2Proof.Machine
end

