-- ==== Sys2Proof/Laws/Memory.lean ====
section
/-! SUPPORT. The buffer as a list of cells: what a read gives after a write, that every operation keeps the canonical form,
and what a range read says of its bytes. -/

namespace Sys2Proof.Machine

/-! ## Reading -/

@[simp] theorem Memory.read_nil (a : Nat) : Memory.read [] a = none := rfl

theorem Memory.read_cons (c : Host.Cell) (m : Memory) (a : Nat) :
    Memory.read (c :: m) a = if c.1 = a then some c.2 else Memory.read m a := rfl

theorem Memory.read_append (m k : Memory) (a : Nat) :
    Memory.read (m ++ k) a = (Memory.read m a).or (Memory.read k a) := by
  induction m with
  | nil => rfl
  | cons c m ih =>
    rw [List.cons_append, read_cons, read_cons, ih]
    split <;> rfl

/-- An offset no cell has holds no value. -/
theorem Memory.read_eq_none {m : Memory} {a : Nat} (h : ∀ c ∈ m, c.1 ≠ a) : Memory.read m a = none := by
  induction m with
  | nil => rfl
  | cons c m ih =>
    rw [read_cons, if_neg (h c (by simp))]
    exact ih fun d hd => h d (by simp [hd])

/-- Cells dropped at other offsets do not change what an offset holds. -/
theorem Memory.read_filter (m : Memory) (p : Nat → Bool) (a : Nat) (h : p a = true) :
    Memory.read (m.filter fun c => p c.1) a = Memory.read m a := by
  induction m with
  | nil => rfl
  | cons c m ih =>
    by_cases hc : p c.1
    · rw [List.filter_cons, if_pos hc, read_cons, read_cons, ih]
    · rw [List.filter_cons, if_neg hc, read_cons, if_neg, ih]
      rintro rfl
      exact hc h

/-! ## A byte list laid out -/

@[simp] theorem Memory.ofBytes_length (a : Nat) (bs : List Byte) : (Memory.ofBytes a bs).length = bs.length := by
  induction bs generalizing a with
  | nil => rfl
  | cons b bs ih => simp [Memory.ofBytes, ih]

@[simp] theorem Memory.ofBytes_addrs (a : Nat) (bs : List Byte) :
    (Memory.ofBytes a bs).map Prod.fst = List.range' a bs.length := by
  induction bs generalizing a with
  | nil => rfl
  | cons b bs ih => simp [Memory.ofBytes, ih, List.range'_succ]

theorem Memory.mem_ofBytes {a : Nat} {bs : List Byte} {c : Host.Cell} (h : c ∈ Memory.ofBytes a bs) :
    a ≤ c.1 ∧ c.1 < a + bs.length := by
  have h' : c.1 ∈ (Memory.ofBytes a bs).map Prod.fst := List.mem_map_of_mem h
  rw [Memory.ofBytes_addrs, List.mem_range'_1] at h'
  exact h'

theorem Memory.read_ofBytes (a : Nat) (bs : List Byte) (x : Nat) :
    Memory.read (Memory.ofBytes a bs) x = if a ≤ x then bs[x - a]? else none := by
  induction bs generalizing a with
  | nil => simp [Memory.ofBytes]
  | cons b bs ih =>
    rw [Memory.ofBytes, read_cons, ih]
    by_cases h : a = x
    · subst h; simp
    · by_cases hlt : a ≤ x
      · have : x - a = (x - (a + 1)) + 1 := by omega
        rw [if_neg h, if_pos hlt, if_pos (by omega), this]; simp
      · rw [if_neg h, if_neg hlt, if_neg (by omega)]

/-! ## Writing -/

/-- A read after a write: the byte written inside the written range, the byte as before outside it. -/
theorem Memory.read_write (m : Memory) (a : Nat) (bs : List Byte) (x : Nat) :
    Memory.read (Memory.write m a bs) x =
      if a ≤ x ∧ x < a + bs.length then bs[x - a]? else Memory.read m x := by
  rw [Memory.write, read_append, read_append, read_ofBytes]
  by_cases hlo : x < a
  · rw [Memory.read_filter m (fun y => decide (y < a)) x (by simpa using hlo), if_neg (by omega), if_neg (by omega),
      Memory.read_eq_none (m := m.filter fun c => decide (a + bs.length ≤ c.1))]
    · simp
    · intro c hc; simp at hc; omega
  · rw [Memory.read_eq_none (m := m.filter fun c => decide (c.1 < a)), if_pos (by omega : a ≤ x), Option.none_or]
    · by_cases hin : x < a + bs.length
      · rw [if_pos ⟨by omega, hin⟩, List.getElem?_eq_getElem (by omega), Option.some_or]
      · rw [if_neg (by omega), List.getElem?_eq_none (by omega), Option.none_or,
          Memory.read_filter m (fun y => decide (a + bs.length ≤ y)) x (by simp; omega)]
    · intro c hc; simp at hc; omega

/-- Where a write does not reach, the byte is as before. -/
theorem Memory.read_write_outside {m : Memory} {a : Nat} {bs : List Byte} {x : Nat} (h : x < a ∨ a + bs.length ≤ x) :
    Memory.read (Memory.write m a bs) x = Memory.read m x := by
  rw [Memory.read_write, if_neg (by omega)]

/-! ## The canonical form -/

theorem Memory.wf_nil : Memory.wf [] := List.Pairwise.nil

theorem Memory.wf_ofBytes (a : Nat) (bs : List Byte) : Memory.wf (Memory.ofBytes a bs) := by
  rw [Memory.wf, Memory.ofBytes_addrs]
  exact List.pairwise_lt_range'

/-- Every write keeps the canonical form. -/
theorem Memory.wf_write {m : Memory} (h : Memory.wf m) (a : Nat) (bs : List Byte) : Memory.wf (Memory.write m a bs) := by
  have hsub : ∀ p : Host.Cell → Bool, ((m.filter p).map Prod.fst).Pairwise (· < ·) := fun p =>
    List.Pairwise.sublist (List.Sublist.map _ List.filter_sublist) h
  rw [Memory.wf, Memory.write, List.map_append, List.map_append, List.pairwise_append, List.pairwise_append]
  refine ⟨⟨hsub _, Memory.wf_ofBytes a bs, ?_⟩, hsub _, ?_⟩
  · intro x hx y hy
    rw [Memory.ofBytes_addrs, List.mem_range'_1] at hy
    simp only [List.mem_map, List.mem_filter, decide_eq_true_eq] at hx
    obtain ⟨c, ⟨-, hc⟩, rfl⟩ := hx
    omega
  · intro x hx y hy
    simp only [List.mem_map, List.mem_filter, decide_eq_true_eq] at hy
    obtain ⟨c, ⟨-, hc⟩, rfl⟩ := hy
    rw [List.mem_append, Memory.ofBytes_addrs, List.mem_range'_1] at hx
    simp only [List.mem_map, List.mem_filter, decide_eq_true_eq] at hx
    rcases hx with ⟨d, ⟨-, hd⟩, rfl⟩ | hx <;> omega

/-- Two canonical buffers that hold the same at every offset are the same list. -/
theorem Memory.ext_of_wf {m k : Memory} (hm : Memory.wf m) (hk : Memory.wf k)
    (h : ∀ a, Memory.read m a = Memory.read k a) : m = k := by
  have none_below : ∀ {l : Memory} {c : Host.Cell}, Memory.wf (c :: l) → ∀ a ≤ c.1, Memory.read l a = none := by
    intro l c hl a ha
    refine Memory.read_eq_none fun d hd => ?_
    have := (List.pairwise_cons.1 hl).1 d.1 (List.mem_map_of_mem hd)
    omega
  induction m generalizing k with
  | nil =>
    cases k with
    | nil => rfl
    | cons c k => have := h c.1; simp [Memory.read_cons] at this
  | cons c m ih =>
    cases k with
    | nil => have := h c.1; simp [Memory.read_cons] at this
    | cons d k =>
      have hcd : c.1 = d.1 := by
        rcases Nat.lt_trichotomy c.1 d.1 with hlt | heq | hgt
        · have := h c.1
          rw [Memory.read_cons, Memory.read_cons, if_pos rfl, if_neg (by omega), none_below hk _ (by omega)] at this
          cases this
        · exact heq
        · have := h d.1
          rw [Memory.read_cons, Memory.read_cons, if_pos rfl, if_neg (by omega), none_below hm _ (by omega)] at this
          cases this
      have hv : c.2 = d.2 := by
        have := h c.1
        rw [Memory.read_cons, Memory.read_cons, if_pos rfl, if_pos hcd.symm] at this
        exact Option.some.inj this
      have hc : c = d := Prod.ext hcd hv
      subst hc
      congr 1
      refine ih (List.Pairwise.of_cons hm) (List.Pairwise.of_cons hk) fun a => ?_
      by_cases ha : a ≤ c.1
      · rw [none_below hm a ha, none_below hk a ha]
      · have := h a
        rwa [Memory.read_cons, Memory.read_cons, if_neg (by omega), if_neg (by omega)] at this

/-! ## Reading a range -/

/-- A range read gives exactly the bytes of the range, and gives them when every one is there. -/
theorem Memory.readRange_eq_ok {m : Memory} {a k : Nat} {bs : List Byte} :
    Memory.readRange m a k = .ok bs ↔ bs.length = k ∧ ∀ j < k, Memory.read m (a + j) = bs[j]? := by
  induction k generalizing a bs with
  | zero =>
    constructor
    · intro h; cases h; simp
    · rintro ⟨h, -⟩; rw [List.length_eq_zero_iff.1 h]; rfl
  | succ k ih =>
    unfold Memory.readRange
    constructor
    · intro h
      split at h
      · cases h
      · rename_i v hv
        split at h
        · cases h
        · rename_i vs hvs
          cases h
          obtain ⟨hlen, hr⟩ := ih.1 hvs
          refine ⟨by simp [hlen], fun j hj => ?_⟩
          cases j with
          | zero => simpa using hv
          | succ j =>
            have := hr j (by omega)
            rw [show a + (j + 1) = a + 1 + j by omega]
            simpa using this
    · rintro ⟨hlen, hr⟩
      cases bs with
      | nil => simp at hlen
      | cons v vs =>
        have h0 : Memory.read m a = some v := by simpa using hr 0 (by omega)
        have hrest : Memory.readRange m (a + 1) k = .ok vs :=
          ih.2 ⟨by simpa using hlen, fun j hj => by
            have := hr (j + 1) (by omega)
            rw [show a + 1 + j = a + (j + 1) by omega]
            simpa using this⟩
        rw [h0, hrest]

/-- Every range of held bytes can be read. -/
theorem Memory.readRange_exists {m : Memory} {a k : Nat} (h : ∀ j < k, (Memory.read m (a + j)).isSome = true) :
    ∃ bs, Memory.readRange m a k = .ok bs := by
  induction k generalizing a with
  | zero => exact ⟨[], rfl⟩
  | succ k ih =>
    obtain ⟨v, hv⟩ := Option.isSome_iff_exists.1 (h 0 (by omega))
    obtain ⟨vs, hvs⟩ := ih (a := a + 1) fun j hj => by
      have := h (j + 1) (by omega)
      rwa [show a + 1 + j = a + (j + 1) by omega]
    refine ⟨v :: vs, ?_⟩
    unfold Memory.readRange
    rw [show Memory.read m a = some v by simpa using hv, hvs]

/-- A buffer that lists exactly the offsets below k holds a byte there and nowhere else. -/
theorem Memory.read_isSome_of_range {m : Memory} {k : Nat} (h : m.map Prod.fst = List.range k) (a : Nat) :
    (Memory.read m a).isSome = decide (a < k) := by
  have key : ∀ l : Memory, a ∈ l.map Prod.fst → (Memory.read l a).isSome = true := by
    intro l
    induction l with
    | nil => simp
    | cons c l ih =>
      intro hl
      rw [Memory.read_cons]
      split
      · rfl
      · rename_i hc
        simp only [List.map_cons, List.mem_cons] at hl
        exact ih (hl.resolve_left fun e => hc e.symm)
  by_cases ha : a < k
  · rw [key m (by rw [h]; simpa using ha)]; simp [ha]
  · rw [Memory.read_eq_none]
    · simp [ha]
    · intro c hc he
      have hm : c.1 ∈ m.map Prod.fst := List.mem_map_of_mem hc
      rw [h, List.mem_range] at hm; omega

/-- Such a buffer is canonical. -/
theorem Memory.wf_of_range {m : Memory} {k : Nat} (h : m.map Prod.fst = List.range k) : Memory.wf m := by
  rw [Memory.wf, h]; exact List.pairwise_lt_range

/-- A write inside such a buffer lists the same offsets. -/
theorem Memory.write_range {m : Memory} {k a : Nat} {bs : List Byte} (h : m.map Prod.fst = List.range k)
    (hin : a + bs.length ≤ k) : (Memory.write m a bs).map Prod.fst = List.range k := by
  have hwf := Memory.wf_write (Memory.wf_of_range h) a bs
  have hm : ∀ y, (∃ c ∈ m, c.1 = y) ↔ y < k := by
    intro y
    rw [← List.mem_range, ← h, List.mem_map]
  refine List.Perm.eq_of_pairwise (le := (· < ·)) (fun x y _ _ h1 h2 => by omega) hwf List.pairwise_lt_range ?_
  refine List.perm_of_nodup_nodup_toFinset_eq (hwf.imp fun h => by omega) List.nodup_range ?_
  ext x
  simp only [List.mem_toFinset, List.mem_range, Memory.write, List.map_append, List.mem_append, Memory.ofBytes_addrs,
    List.mem_range'_1, List.mem_map, List.mem_filter, decide_eq_true_eq]
  constructor
  · rintro ((⟨c, ⟨hc, -⟩, rfl⟩ | h1) | ⟨c, ⟨hc, -⟩, rfl⟩)
    · exact (hm _).1 ⟨c, hc, rfl⟩
    · omega
    · exact (hm _).1 ⟨c, hc, rfl⟩
  · intro hx
    obtain ⟨c, hc, rfl⟩ := (hm x).2 hx
    by_cases h1 : c.1 < a
    · exact .inl (.inl ⟨c, ⟨hc, h1⟩, rfl⟩)
    · by_cases h2 : c.1 < a + bs.length
      · exact .inl (.inr (by omega))
      · exact .inr ⟨c, ⟨hc, by omega⟩, rfl⟩

end Sys2Proof.Machine
end

