-- ==== Sys2Proof/Laws/Operands.lean ====
section
/-! SUPPORT. What the computed operands are: indices, rotate amounts, header bytes, the bytes of a pixel, shifted and
repeated byte lists, and that every order an ORDER_MAP or a free value gives is legal. -/

namespace Sys2Proof.Machine

/-! ## Indices and rotate amounts -/

/-- An index names a pixel exactly when it is that pixel's number and the chain has it. -/
theorem pixelIndex_eq_some {idx : BitVec 16} {n : BitVec 11} {i : Nat} :
    pixelIndex idx n = some i ↔ sint idx = i ∧ i < n.toNat := by
  unfold pixelIndex
  split
  · rename_i h
    simp only [Option.some.injEq]
    omega
  · rename_i h
    simp only [reduceCtorEq, false_iff]
    omega

/-- An index names no pixel exactly when it is negative or too large. -/
theorem pixelIndex_eq_none {idx : BitVec 16} {n : BitVec 11} :
    pixelIndex idx n = none ↔ sint idx < 0 ∨ (n.toNat : Int) ≤ sint idx := by
  unfold pixelIndex
  split <;> simp only [reduceCtorEq, false_iff, true_iff] <;> omega

/-- The rotate amount is below the number of LEDs. -/
theorem rotateAmount_lt (pos : BitVec 16) {n : BitVec 11} (h : 0 < n.toNat) : rotateAmount pos n < n.toNat := by
  unfold rotateAmount fmod
  have h1 := Int.emod_lt_of_pos (sint pos) (show (0 : Int) < n.toNat by omega)
  have h2 := Int.emod_nonneg (sint pos) (show (n.toNat : Int) ≠ 0 by omega)
  have : (sint pos).emod n.toNat = sint pos % n.toNat := rfl
  omega

/-! ## Header bytes and pixels -/

theorem marker_headerOf (q : BitVec 5) : field (headerOf q) 5 3 = 7 := by revert q; decide

theorem brightnessOf_headerOf (q : BitVec 5) : brightnessOf (headerOf q) = q := by revert q; decide

/-- A byte with the marker bits is the header of its own brightness. -/
theorem headerOf_brightnessOf {h : Byte} (hm : field h 5 3 = 7) : headerOf (brightnessOf h) = h := by
  revert h; decide

@[simp] theorem pixelBytes_length (o : Order) (r g b : Byte) (q : BitVec 5) : (pixelBytes o r g b q).length = 4 := by
  simp [pixelBytes]

/-- Under a legal order each byte of a pixel stands where R102 puts it. -/
theorem pixelBytes_get {o : Order} (ho : o.legal = true) (r g b : Byte) (q : BitVec 5) :
    (pixelBytes o r g b q)[0]? = some (headerOf q) ∧ (pixelBytes o r g b q)[o.r.toNat]? = some r ∧
      (pixelBytes o r g b q)[o.g.toNat]? = some g ∧ (pixelBytes o r g b q)[o.b.toNat]? = some b := by
  obtain ⟨x, y, z⟩ := o
  have key : ∀ x y z : BitVec 2, Order.legal ⟨x, y, z⟩ = true →
      x.toNat ≠ 0 ∧ y.toNat ≠ 0 ∧ z.toNat ≠ 0 ∧ x.toNat ≠ y.toNat ∧ y.toNat ≠ z.toNat ∧ x.toNat ≠ z.toNat := by decide
  obtain ⟨hx, hy, hz, hxy, hyz, hxz⟩ := key x y z ho
  have hx4 := x.isLt; have hy4 := y.isLt; have hz4 := z.isLt
  simp only [pixelBytes, List.getElem?_set, List.length_set, List.length_cons, List.length_nil]
  refine ⟨?_, ?_, ?_, ?_⟩
  · rw [if_neg (by omega), if_neg (by omega), if_neg (by omega)]; rfl
  · rw [if_neg (by omega), if_neg (by omega), if_pos trivial, if_pos (by omega)]
  · rw [if_neg (by omega), if_pos trivial, if_pos (by omega)]
  · rw [if_pos trivial, if_pos (by omega)]

/-- A black pixel has the same bytes under every legal order. -/
theorem pixelBytes_black {o : Order} (ho : o.legal = true) (q : BitVec 5) :
    pixelBytes o 0 0 0 q = [headerOf q, 0, 0, 0] := by
  obtain ⟨x, y, z⟩ := o
  have key : ∀ x y z : BitVec 2, Order.legal ⟨x, y, z⟩ = true → x.toNat ∈ [1, 2, 3] ∧ y.toNat ∈ [1, 2, 3] ∧ z.toNat ∈ [1, 2, 3] := by
    decide
  obtain ⟨hx, hy, hz⟩ := key x y z ho
  simp only [List.mem_cons, List.not_mem_nil, or_false] at hx hy hz
  simp only [pixelBytes]
  rcases hx with h1 | h1 | h1 <;> rcases hy with h2 | h2 | h2 <;> rcases hz with h3 | h3 | h3 <;> simp [h1, h2, h3]

/-! ## Orders -/

theorem legalOrder_legal (k : Fin 6) : (legalOrder k).legal = true := by revert k; decide

/-- Every tag code gives one of the map's orders, so a legal map gives a legal order. -/
theorem orderOfCode_legal {m : OrderMap} (h : m.legal = true) (t : BitVec 8) : (orderOfCode m t).legal = true := by
  simp only [OrderMap.legal, OrderMap.toList, List.all_cons, List.all_nil, Bool.and_eq_true] at h
  obtain ⟨⟨h1, h2, h3, h4, h5, h6, -⟩, -⟩ := h
  unfold orderOfCode
  cases tagOfCode t <;> assumption

/-! ## Repeated and shifted byte lists -/

@[simp] theorem repeatPixel_length (n : Nat) (px : List Byte) : (repeatPixel n px).length = n * px.length := by
  simp [repeatPixel]

/-- Each copy of a repeated pixel is the pixel. -/
theorem repeatPixel_get {n : Nat} {px : List Byte} {i k : Nat} (hi : i < n) (hk : k < px.length) :
    (repeatPixel n px)[px.length * i + k]? = px[k]? := by
  induction n generalizing i with
  | zero => omega
  | succ n ih =>
    have hs : repeatPixel (n + 1) px = px ++ repeatPixel n px := by simp [repeatPixel, List.replicate_succ]
    rw [hs]
    cases i with
    | zero => rw [List.getElem?_append_left (by omega)]; simp
    | succ i =>
      rw [List.getElem?_append_right (by rw [Nat.mul_succ]; omega),
        show px.length * (i + 1) + k - px.length = px.length * i + k by rw [Nat.mul_succ]; omega]
      exact ih (by omega)

@[simp] theorem shiftLower_length (k : Nat) (l : List Byte) : (shiftLower k l).length = l.length := by
  simp [shiftLower]; omega

@[simp] theorem shiftBy_length (d : RotDir) (k : Nat) (l : List Byte) : (shiftBy d k l).length = l.length := by
  cases d <;> simp [shiftBy]

/-- Position j of a shifted list holds what stood k further, around the end. -/
theorem shiftLower_get {k : Nat} {l : List Byte} (hk : k ≤ l.length) {j : Nat} (hj : j < l.length) :
    (shiftLower k l)[j]? = l[(j + k) % l.length]? := by
  unfold shiftLower
  by_cases h : j < l.length - k
  · rw [List.getElem?_append_left (by simpa using h), List.getElem?_drop, Nat.mod_eq_of_lt (by omega), Nat.add_comm]
  · have hm : (j + k) % l.length = j + k - l.length := by
      rw [Nat.mod_eq_sub_mod (by omega), Nat.mod_eq_of_lt (by omega)]
    rw [List.getElem?_append_right (by simp; omega), List.length_drop, List.getElem?_take_of_lt (by omega), hm]
    congr 1; omega

end Sys2Proof.Machine
end

