-- ==== Sys2Proof/Laws/Ops.lean ====
section
/-! SUPPORT. One lemma per shared operation that says everything it can answer; later proofs cite these and unfold nothing. -/

namespace Sys2Proof.Machine

@[simp] theorem pixelAddr_eq (i : Nat) : pixelAddr i = 4 * i := rfl

theorem State.bufLen_eq (s : State) : s.bufLen = 4 * s.numleds.toNat := rfl

@[simp] theorem raise_eq (st : Status) (s : State) : raise st s = .next (s.respond st) := rfl

/-! ## The buffer of a state -/

/-- `buf[a]` answers a byte exactly when the offset is in the buffer and holds that byte. -/
theorem State.readByte_eq_ok {s : State} {a : Nat} {v : Byte} :
    s.readByte a = .ok v ↔ a < s.bufLen ∧ Memory.read s.buf a = some v := by
  unfold State.readByte
  split
  · split <;> simp_all
  · simp_all

/-- The only fault of `buf[a]` inside the buffer is a byte nothing has written. -/
theorem State.readByte_error {s : State} {a : Nat} {f : Fault} (h : s.readByte a = .error f) (ha : a < s.bufLen) :
    f = .unwrittenByte a ∧ Memory.read s.buf a = none := by
  unfold State.readByte at h
  rw [if_pos ha] at h
  split at h
  · cases h
  · cases h; exact ⟨rfl, by assumption⟩

/-- MemRead answers the bytes of its range exactly when the range is in the buffer and every byte is held. -/
theorem State.memRead_eq_ok {s : State} {a n : Nat} {bs : List Byte} :
    s.memRead a n = .ok bs ↔
      a + n ≤ s.bufLen ∧ bs.length = n ∧ ∀ j < n, Memory.read s.buf (a + j) = bs[j]? := by
  rw [← Memory.readRange_eq_ok]
  unfold State.memRead
  split
  · split <;> simp_all
  · simp_all

/-- MemRead of a held range inside the buffer answers. -/
theorem State.memRead_exists {s : State} {a n : Nat} (hin : a + n ≤ s.bufLen)
    (h : ∀ j < n, (Memory.read s.buf (a + j)).isSome = true) : ∃ bs, s.memRead a n = .ok bs := by
  obtain ⟨bs, hbs⟩ := Memory.readRange_exists h
  exact ⟨bs, by unfold State.memRead; rw [if_pos hin, hbs]⟩

/-- The only fault of MemRead inside the buffer is a byte nothing has written. -/
theorem State.memRead_error {s : State} {a n : Nat} {f : Fault} (h : s.memRead a n = .error f) (hin : a + n ≤ s.bufLen) :
    ∃ e, f = .unwrittenByte e := by
  unfold State.memRead at h
  rw [if_pos hin] at h
  split at h
  · cases h
  · cases h; exact ⟨_, rfl⟩

/-- MemWrite inside the buffer writes. -/
theorem State.memWrite_ok {s : State} {a : Nat} {bs : List Byte} (h : a + bs.length ≤ s.bufLen) :
    s.memWrite a bs = .ok { s with buf := Memory.write s.buf a bs } := by
  unfold State.memWrite; rw [if_pos h]

/-- MemWrite answers only inside the buffer, and then it changes the buffer alone. -/
theorem State.memWrite_eq_ok {s t : State} {a : Nat} {bs : List Byte} :
    s.memWrite a bs = .ok t ↔ a + bs.length ≤ s.bufLen ∧ t = { s with buf := Memory.write s.buf a bs } := by
  unfold State.memWrite
  split
  · rename_i h
    simp only [Except.ok.injEq, h, true_and]
    exact eq_comm
  · rename_i h
    simp [h]

/-- The pixel store of a pixel the chain has. -/
theorem State.storePixel_ok {s : State} {i : Nat} (h : i < s.numleds.toNat) (r g b : Byte) (q : BitVec 5) :
    s.storePixel i r g b q = .ok { s with buf := Memory.write s.buf (4 * i) (pixelBytes s.order r g b q) } := by
  unfold State.storePixel
  rw [State.memWrite_ok]
  · rfl
  · rw [pixelBytes_length, State.bufLen_eq, pixelAddr_eq]; omega

/-- `blank()` always writes, and writes the whole buffer. -/
theorem State.blank_ok (s : State) :
    s.blank = .ok { s with
      buf := Memory.write s.buf 0 <|
        repeatPixel s.numleds.toNat (pixelBytes s.order 0 0 0 (quintet Config.pctDefault s.gb)) } := by
  unfold State.blank
  rw [State.memWrite_ok]
  rw [repeatPixel_length, pixelBytes_length, State.bufLen_eq]; omega

/-- A pixel is loaded exactly when its header and its three colours are read. -/
theorem State.loadPixel_eq_ok {s : State} {i : Nat} {px : Pixel} :
    s.loadPixel i = .ok px ↔
      s.readByte (4 * i) = .ok px.hdr ∧ s.readByte (4 * i + s.order.r.toNat) = .ok px.red ∧
        s.readByte (4 * i + s.order.g.toNat) = .ok px.green ∧ s.readByte (4 * i + s.order.b.toNat) = .ok px.blue := by
  obtain ⟨h, r, g, b⟩ := px
  unfold State.loadPixel
  rw [pixelAddr_eq]
  cases s.readByte (4 * i) <;> cases s.readByte (4 * i + s.order.r.toNat) <;>
    cases s.readByte (4 * i + s.order.g.toNat) <;> cases s.readByte (4 * i + s.order.b.toNat) <;> simp

/-- A pixel the chain has fails to load only for a byte nothing has written. -/
theorem State.loadPixel_error {s : State} {i : Nat} {f : Fault} (h : s.loadPixel i = .error f) (hi : i < s.numleds.toNat) :
    ∃ a, f = .unwrittenByte a := by
  have key : ∀ k < 4, ∀ e, s.readByte (4 * i + k) = .error e → ∃ a, e = .unwrittenByte a := fun k hk e he =>
    ⟨_, (State.readByte_error he (by rw [State.bufLen_eq]; omega)).1⟩
  unfold State.loadPixel at h
  rw [pixelAddr_eq] at h
  split at h
  · cases h
  · cases h; exact key 0 (by omega) _ (by assumption)
  · cases h; exact key _ s.order.r.isLt _ (by assumption)
  · cases h; exact key _ s.order.g.isLt _ (by assumption)
  · cases h; exact key _ s.order.b.isLt _ (by assumption)

/-! ## The frame -/

/-- The start frame is four zero bytes. -/
theorem startBytes_eq : startBytes = [0, 0, 0, 0] := by decide

/-- The reset frame is four zero bytes where HASRESET is 1, and nothing elsewhere. -/
theorem State.resetBytes_eq (s : State) : s.resetBytes = if s.hasreset = 1 then [0, 0, 0, 0] else [] := rfl

/-- The padding is that many zero bytes. -/
theorem State.padBytes_eq (s : State) : s.padBytes = List.replicate s.padLen 0 := by
  unfold State.padBytes
  rw [show wireBytes (encode .endPadByte) = [(0 : Byte)] from rfl]
  induction s.padLen with
  | zero => rfl
  | succ n ih => rw [List.replicate_succ, List.flatten_cons, ih, List.replicate_succ]; rfl

/-- The frame is built exactly when the whole buffer is read, around its bytes. -/
theorem State.buildFrame_eq_ok {s : State} {f : List Byte} :
    s.buildFrame = .ok f ↔
      ∃ px, s.memRead 0 s.bufLen = .ok px ∧ f = startBytes ++ px ++ s.resetBytes ++ s.padBytes := by
  unfold State.buildFrame
  cases s.memRead 0 s.bufLen <;> simp [eq_comm]

/-- The frame fails to be built only for a byte nothing has written. -/
theorem State.buildFrame_error {s : State} {f : Fault} (h : s.buildFrame = .error f) : ∃ a, f = .unwrittenByte a := by
  unfold State.buildFrame at h
  split at h
  · cases h
    exact State.memRead_error (by assumption) (by omega)
  · cases h

/-- The frame depends on NUMLEDS, HASRESET and the buffer alone. -/
theorem State.buildFrame_congr {s t : State} (hn : t.numleds = s.numleds) (hh : t.hasreset = s.hasreset)
    (hb : t.buf = s.buf) : t.buildFrame = s.buildFrame := by
  unfold State.buildFrame State.memRead State.resetBytes State.padBytes State.padLen State.bufLen
  rw [hn, hh, hb]

/-! ## The transport -/

/-- With no answer there, the operation waits and nothing else changes. -/
theorem State.callTransport_nil {s : State} (w : Waiting) (h : s.answers = []) :
    s.callTransport w = { s with waiting := some w } := by
  unfold State.callTransport; rw [h]

/-- With an answer there, the operation completes with it. -/
theorem State.callTransport_cons {s : State} (w : Waiting) {r : TResult} {rest : List TResult} (h : s.answers = r :: rest) :
    s.callTransport w = State.complete { s with answers := rest, waiting := none } w r := by
  unfold State.callTransport; rw [h]

/-- A flush answers a next state exactly when the frame can be built, and then the transport is called with it. -/
theorem State.flush_eq_next {s t : State} {w : Waiting} :
    s.flush w = .next t ↔ ∃ f, s.buildFrame = .ok f ∧ t = State.callTransport { s with frame := f } w := by
  unfold State.flush
  cases s.buildFrame <;> simp [eq_comm]

/-- A flush stops only for a byte nothing has written. -/
theorem State.flush_stops {s : State} {w : Waiting} :
    (∃ t, s.flush w = .next t) ∨ ∃ a, s.flush w = .fault (.unwrittenByte a) := by
  unfold State.flush
  cases h : s.buildFrame with
  | ok f => exact .inl ⟨_, rfl⟩
  | error f =>
    obtain ⟨a, rfl⟩ := State.buildFrame_error h
    exact .inr ⟨a, rfl⟩

/-! ## The gates -/

theorem whenReady_ready {s : State} (h : s.mode = .ready) (k : State → Host.Outcome State Fault Refusal) :
    whenReady s k = k s := by
  unfold whenReady; rw [h]

theorem whenReady_unconfigured {s : State} (h : s.mode = .unconfigured) (k : State → Host.Outcome State Fault Refusal) :
    whenReady s k = .next (s.respond .notready) := by
  unfold whenReady; rw [h]; rfl

/-- The write instructions' effect always answers: nothing but `OK` for an index no pixel has, else the pixel stored. -/
theorem setPixel_eq (idx : BitVec 16) (r g b : Byte) (pct : BitVec 8) (s : State) :
    setPixel idx r g b pct s =
      match pixelIndex idx s.numleds with
      | none => .next (s.respond .ok)
      | some i => .next (State.respond { s with
          buf := Memory.write s.buf (4 * i) (pixelBytes s.order r g b (quintet pct s.gb)) } .ok) := by
  unfold setPixel
  cases h : pixelIndex idx s.numleds with
  | none => rfl
  | some i => simp only [State.storePixel_ok (pixelIndex_eq_some.1 h).2]

end Sys2Proof.Machine
end

