-- ==== Sys2Proof/Laws/Exec.lean ====
section
/-! SUPPORT. What each instruction can do: one lemma per meaning, an equation where it always answers, else the cases of a
next state. -/

namespace Sys2Proof.Machine

variable {s t : State}

/-- LFE is in one of its two modes. -/
theorem State.mode_cases (s : State) : s.mode = .unconfigured ∨ s.mode = .ready := by
  cases s.mode
  · exact .inl rfl
  · exact .inr rfl

/-! ## The pixel instructions -/

theorem exec_set (idx : BitVec 16) (r g b : Byte) (s : State) :
    exec (.set idx r g b) s = whenReady s (setPixel idx r g b Config.pctDefault) := rfl

theorem exec_setb (idx : BitVec 16) (r g b : Byte) (pct : BitVec 8) (s : State) :
    exec (.setb idx r g b pct) s = whenReady s (setPixel idx r g b pct) := rfl

theorem exec_setp (idx : BitVec 16) (c : BitVec 24) (pct : BitVec 8) (s : State) :
    exec (.setp idx c pct) s = whenReady s (setPixel idx (redOf c) (greenOf c) (blueOf c) pct) := rfl

/-- The three write instructions: NOTREADY, nothing for an index out of range, or one pixel stored. -/
theorem whenReady_setPixel_cases {idx : BitVec 16} {r g b : Byte} {pct : BitVec 8}
    (h : whenReady s (setPixel idx r g b pct) = .next t) :
    (s.mode = .unconfigured ∧ t = s.respond .notready) ∨
      (s.mode = .ready ∧ pixelIndex idx s.numleds = none ∧ t = s.respond .ok) ∨
      ∃ i, s.mode = .ready ∧ pixelIndex idx s.numleds = some i ∧
        t = State.respond { s with buf := Memory.write s.buf (4 * i) (pixelBytes s.order r g b (quintet pct s.gb)) } .ok := by
  rcases s.mode_cases with hm | hm
  · rw [whenReady_unconfigured hm] at h
    cases h; exact .inl ⟨hm, rfl⟩
  · rw [whenReady_ready hm, setPixel_eq] at h
    cases hi : pixelIndex idx s.numleds with
    | none => rw [hi] at h; cases h; exact .inr (.inl ⟨hm, rfl, rfl⟩)
    | some i => rw [hi] at h; cases h; exact .inr (.inr ⟨i, hm, rfl, rfl⟩)

/-- GET in READY, by the index and GB. -/
theorem exec_get_ready (hm : s.mode = .ready) (idx : BitVec 16) :
    exec (.get idx) s =
      match pixelIndex idx s.numleds with
      | none => .next (s.respond .ok)
      | some i =>
        if s.gb = 0 then .next (s.respond .divzero)
        else
          match s.loadPixel i with
          | .error f => .fault f
          | .ok px => .next (s.give (responseWord .ok 1 px.red px.green px.blue (recon (brightnessOf px.hdr) s.gb))) := by
  show execGet idx s = _
  unfold execGet
  rw [whenReady_ready hm]
  rfl

/-- GET leaves everything but the responses. -/
theorem exec_get_next {idx : BitVec 16} (h : exec (.get idx) s = .next t) :
    (∃ st, (st = .notready ∨ st = .ok ∨ st = .divzero) ∧ t = s.respond st) ∨
      (s.mode = .ready ∧ ∃ r g b p, t = s.give (responseWord .ok 1 r g b p)) := by
  rcases s.mode_cases with hm | hm
  · change execGet idx s = _ at h
    unfold execGet at h
    rw [whenReady_unconfigured hm] at h
    cases h; exact .inl ⟨.notready, .inl rfl, rfl⟩
  · rw [exec_get_ready hm] at h
    split at h
    · cases h; exact .inl ⟨.ok, .inr (.inl rfl), rfl⟩
    · split at h
      · cases h; exact .inl ⟨.divzero, .inr (.inr rfl), rfl⟩
      · split at h
        · cases h
        · cases h; exact .inr ⟨hm, _, _, _, _, rfl⟩

/-! ## ROT -/

/-- ROT in READY answers exactly when the buffer can be read, and writes it back shifted. -/
theorem exec_rot_ready (hm : s.mode = .ready) (pos : BitVec 16) :
    exec (.rot pos) s =
      match s.memRead 0 s.bufLen with
      | .error f => .fault f
      | .ok old => .next (State.respond { s with
          buf := Memory.write s.buf 0 (shiftBy s.params.rotDir (4 * rotateAmount pos s.numleds) old) } .ok) := by
  show execRot pos s = _
  unfold execRot
  rw [whenReady_ready hm]
  cases h : s.memRead 0 s.bufLen with
  | error f => rfl
  | ok old =>
    have hlen := (State.memRead_eq_ok.1 h).2.1
    have hw : s.memWrite 0 (shiftBy s.params.rotDir (Config.stride * rotateAmount pos s.numleds) old) = .ok _ :=
      State.memWrite_ok (by rw [shiftBy_length]; omega)
    simp only [hw]

theorem exec_rot_next {pos : BitVec 16} (h : exec (.rot pos) s = .next t) :
    (s.mode = .unconfigured ∧ t = s.respond .notready) ∨
      ∃ old, s.mode = .ready ∧ s.memRead 0 s.bufLen = .ok old ∧
        t = State.respond { s with
          buf := Memory.write s.buf 0 (shiftBy s.params.rotDir (4 * rotateAmount pos s.numleds) old) } .ok := by
  rcases s.mode_cases with hm | hm
  · change execRot pos s = _ at h
    unfold execRot at h
    rw [whenReady_unconfigured hm] at h
    cases h; exact .inl ⟨hm, rfl⟩
  · rw [exec_rot_ready hm] at h
    split at h
    · cases h
    · rename_i old hold
      cases h; exact .inr ⟨old, hm, hold, rfl⟩

/-! ## SHOW, CLEAR, TEARDOWN -/

theorem exec_showFrame_ready (hm : s.mode = .ready) : exec .showFrame s = s.flush .showFrame := by
  show execShowFrame s = _
  unfold execShowFrame
  rw [whenReady_ready hm]

/-- The state with every pixel black (R139). -/
def State.blanked (s : State) : State :=
  { s with buf := Memory.write s.buf 0 (repeatPixel s.numleds.toNat (pixelBytes s.order 0 0 0 (quintet Config.pctDefault s.gb))) }

theorem exec_clear_ready (hm : s.mode = .ready) : exec .clear s = s.blanked.flush .clear := by
  show execClear s = _
  unfold execClear
  rw [whenReady_ready hm, State.blank_ok]
  rfl

theorem exec_teardown_ready (hm : s.mode = .ready) : exec .teardown s = s.blanked.flush .teardown := by
  show execTeardown s = _
  unfold execTeardown
  rw [hm, State.blank_ok]
  rfl

theorem exec_teardown_unconfigured (hm : s.mode = .unconfigured) : exec .teardown s = .next (s.respond .ok) := by
  show execTeardown s = _
  unfold execTeardown
  rw [hm]
  rfl

/-- A blanked buffer reads whole: the copies of the black pixel. -/
theorem State.blanked_memRead (s : State) :
    s.blanked.memRead 0 s.blanked.bufLen =
      .ok (repeatPixel s.numleds.toNat (pixelBytes s.order 0 0 0 (quintet Config.pctDefault s.gb))) := by
  have hl : (repeatPixel s.numleds.toNat (pixelBytes s.order 0 0 0 (quintet Config.pctDefault s.gb))).length =
      s.blanked.bufLen := by
    rw [repeatPixel_length, pixelBytes_length, State.bufLen_eq, Nat.mul_comm]; rfl
  rw [State.memRead_eq_ok]
  refine ⟨by omega, hl, fun j hj => ?_⟩
  show Memory.read (Memory.write _ _ _) _ = _
  rw [Memory.read_write, if_pos (by omega)]
  simp

/-- So a flush of a blanked buffer always calls the transport. -/
theorem State.blanked_flush (s : State) (w : Waiting) :
    ∃ f, s.blanked.buildFrame = .ok f ∧ s.blanked.flush w = .next (State.callTransport { s.blanked with frame := f } w) := by
  refine ⟨_, State.buildFrame_eq_ok.2 ⟨_, s.blanked_memRead, rfl⟩, ?_⟩
  rw [State.flush_eq_next]
  exact ⟨_, State.buildFrame_eq_ok.2 ⟨_, s.blanked_memRead, rfl⟩, rfl⟩

/-! ## SETGB and CONFIG -/

theorem exec_setgb_ready (hm : s.mode = .ready) (val : BitVec 8) :
    exec (.setgb val) s =
      if 31 < val.toNat then .next (s.respond .cfgBrightness)
      else .next (State.respond { s with gb := field val 0 5 } .ok) := by
  show execSetgb val s = _
  unfold execSetgb
  rw [whenReady_ready hm]
  rfl

/-- CONFIG passes its checks exactly for a legal LED count, a consistent transport and a legal brightness. -/
theorem configError_eq_none {n : BitVec 16} {g : BitVec 8} {k : BitVec 1} :
    configError n g k = none ↔ 1 ≤ n.toNat ∧ n.toNat ≤ 1024 ∧ k = 1 ∧ g.toNat ≤ 31 := by
  have hk : k = 0 ∨ k = 1 := by revert k; decide
  have hc : Config.minLeds = 1 ∧ Config.maxLeds = 1024 ∧ Config.gbMax = 31 := ⟨rfl, rfl, rfl⟩
  unfold configError
  by_cases h1 : n.toNat < Config.minLeds ∨ Config.maxLeds < n.toNat
  · rw [if_pos h1]; simp only [reduceCtorEq, false_iff]; omega
  · rw [if_neg h1]
    rcases hk with rfl | rfl
    · simp
    · rw [if_neg (by decide)]
      by_cases h3 : Config.gbMax < g.toNat
      · rw [if_pos h3]; simp only [reduceCtorEq, false_iff]; omega
      · rw [if_neg h3]; simp only [true_iff, true_and]; omega

/-- The errors CONFIG's checks can name. -/
theorem configError_status {n : BitVec 16} {g : BitVec 8} {k : BitVec 1} {e : Status} (h : configError n g k = some e) :
    e = .cfgLedcount ∨ e = .cfgBuspin ∨ e = .cfgBrightness := by
  unfold configError at h
  split at h
  · cases h; exact .inl rfl
  · split at h
    · cases h; exact .inr (.inl rfl)
    · split at h <;> cases h
      exact .inr (.inr rfl)

/-- CONFIG: ALREADY, an error of its checks, or the transport called. It always answers a next state. -/
theorem exec_config (n : BitVec 16) (tg g : BitVec 8) (h k : BitVec 1) (s : State) :
    exec (.config n tg g h k) s =
      match s.mode, configError n g k with
      | .ready, _ => .next (s.respond .already)
      | .unconfigured, some e => .next (s.respond e)
      | .unconfigured, none => .next (s.callTransport (.acquire n tg g h)) := by
  show execConfig n tg g h k s = _
  unfold execConfig
  cases s.mode <;> cases configError n g k <;> rfl


end Sys2Proof.Machine
end

