-- ==== Sys2Proof/Laws/PerInstr.lean ====
section
/-! SUPPORT. The per-instruction family TableMatch: the word of an instruction, masked with the mask of its row of
spec/opcode_table.json, is that row's match. The masks and matches are written out from the table. -/

namespace Sys2Proof.Laws.TableMatch

/-- The word has the width of its row, and its masked bits are the row's. -/
def fits (mask pattern : Nat) : PortWord → Nat → Prop
  | .command w, 64 => w &&& BitVec.ofNat 64 mask = BitVec.ofNat 64 pattern
  | .frame w, 32 => w &&& BitVec.ofNat 32 mask = BitVec.ofNat 32 pattern
  | .pad w, 8 => w &&& BitVec.ofNat 8 mask = BitVec.ofNat 8 pattern
  | _, _ => False

/-- The instruction is well-formed and its word fits its row of the opcode table. -/
def Statement (i : Instr) : Prop :=
  i.wellFormed = true ∧
    match i with
    | .config _ _ _ _ _ => fits 0xF000000FFFF003FF 0x1000000000000000 (encode i) 64
    | .set _ _ _ _ => fits 0xF0000000000FFFFF 0x2000000000000000 (encode i) 64
    | .setb _ _ _ _ _ => fits 0xF000000000000FFF 0x3000000000000000 (encode i) 64
    | .setp _ _ _ => fits 0xF000000000000FFF 0x4000000000000000 (encode i) 64
    | .get _ => fits 0xF0000FFFFFFFFFFF 0x5000000000000000 (encode i) 64
    | .rot _ => fits 0xF0000FFFFFFFFFFF 0x6000000000000000 (encode i) 64
    | .setgb _ => fits 0xFFFFFFFFFFF00FFF 0x7000000000000000 (encode i) 64
    | .showFrame => fits 0xFFFFFFFFFFFFFFFF 0x8000000000000000 (encode i) 64
    | .clear => fits 0xFFFFFFFFFFFFFFFF 0x9000000000000000 (encode i) 64
    | .teardown => fits 0xFFFFFFFFFFFFFFFF 0xA000000000000000 (encode i) 64
    | .startFrame => fits 0xFFFFFFFF 0 (encode i) 32
    | .pixelFrame _ _ _ _ => fits 0xE0000000 0xE0000000 (encode i) 32
    | .resetFrame => fits 0xFFFFFFFF 0 (encode i) 32
    | .endPadByte => fits 0xFF 0 (encode i) 8

theorem config (n : BitVec 16) (t g : BitVec 8) (h k : BitVec 1) : Statement (.config n t g h k) := by
  refine ⟨rfl, ?_⟩
  change (1#4 ++ n ++ t ++ 0#16 ++ g ++ h ++ k ++ 0#10) &&& (0xF#4 ++ 0#16 ++ 0#8 ++ 0xFFFF#16 ++ 0#8 ++ 0#1 ++ 0#1 ++ 0x3FF#10) = _
  simp only [BitVec.and_append, BitVec.and_zero]; rfl

theorem set (i : BitVec 16) (r g b : Byte) : Statement (.set i r g b) := by
  refine ⟨rfl, ?_⟩
  change (2#4 ++ i ++ r ++ g ++ b ++ 0#20) &&& (0xF#4 ++ 0#16 ++ 0#8 ++ 0#8 ++ 0#8 ++ 0xFFFFF#20) = _
  simp only [BitVec.and_append, BitVec.and_zero]; rfl

theorem setb (i : BitVec 16) (r g b : Byte) (p : BitVec 8) : Statement (.setb i r g b p) := by
  refine ⟨rfl, ?_⟩
  change (3#4 ++ i ++ r ++ g ++ b ++ p ++ 0#12) &&& (0xF#4 ++ 0#16 ++ 0#8 ++ 0#8 ++ 0#8 ++ 0#8 ++ 0xFFF#12) = _
  simp only [BitVec.and_append, BitVec.and_zero]; rfl

theorem setp (i : BitVec 16) (c : BitVec 24) (p : BitVec 8) : Statement (.setp i c p) := by
  refine ⟨rfl, ?_⟩
  change (4#4 ++ i ++ c ++ p ++ 0#12) &&& (0xF#4 ++ 0#16 ++ 0#24 ++ 0#8 ++ 0xFFF#12) = _
  simp only [BitVec.and_append, BitVec.and_zero]; rfl

theorem get (i : BitVec 16) : Statement (.get i) := by
  refine ⟨rfl, ?_⟩
  change (5#4 ++ i ++ 0#44) &&& (0xF#4 ++ 0#16 ++ 0xFFFFFFFFFFF#44) = _
  simp only [BitVec.and_append, BitVec.and_zero]; rfl

theorem rot (p : BitVec 16) : Statement (.rot p) := by
  refine ⟨rfl, ?_⟩
  change (6#4 ++ p ++ 0#44) &&& (0xF#4 ++ 0#16 ++ 0xFFFFFFFFFFF#44) = _
  simp only [BitVec.and_append, BitVec.and_zero]; rfl

theorem setgb (v : BitVec 8) : Statement (.setgb v) := by
  refine ⟨rfl, ?_⟩
  change (7#4 ++ 0#40 ++ v ++ 0#12) &&& (0xF#4 ++ 0xFFFFFFFFFF#40 ++ 0#8 ++ 0xFFF#12) = _
  simp only [BitVec.and_append, BitVec.and_zero]; rfl

theorem showFrame : Statement .showFrame := ⟨rfl, rfl⟩
theorem clear : Statement .clear := ⟨rfl, rfl⟩
theorem teardown : Statement .teardown := ⟨rfl, rfl⟩
theorem startFrame : Statement .startFrame := ⟨rfl, rfl⟩

theorem pixelFrame (q : BitVec 5) (x y z : Byte) : Statement (.pixelFrame q x y z) := by
  refine ⟨rfl, ?_⟩
  change (7#3 ++ q ++ x ++ y ++ z) &&& (7#3 ++ 0#5 ++ 0#8 ++ 0#8 ++ 0#8) = _
  simp only [BitVec.and_append, BitVec.and_zero]; rfl

theorem resetFrame : Statement .resetFrame := ⟨rfl, rfl⟩
theorem endPadByte : Statement .endPadByte := ⟨rfl, rfl⟩

end Sys2Proof.Laws.TableMatch
end

