-- ==== Sys2Proof/Laws/Step.lean ====
section
/-! SUPPORT. What one step can be, what completing an operation leaves, and what each meaning does to the fields outside
the buffer. -/

namespace Sys2Proof.Machine

variable {s t : State}

/-! ## Fetching -/

theorem fetch_reset {rest : List Event} (h : s.inbox = .reset :: rest) :
    fetch s = .settled (State.assertReset { s with inbox := rest }) := by
  unfold fetch; rw [h]

theorem fetch_waiting {w : Waiting} (hi : ∀ rest, s.inbox ≠ .reset :: rest) (hw : s.waiting = some w) :
    fetch s = .settled (resume s w) := by
  unfold fetch
  rw [hw]
  cases hb : s.inbox with
  | nil => rfl
  | cons e rest =>
    cases e with
    | word p => rfl
    | reset => exact absurd hb (hi rest)

theorem fetch_idle (hi : s.inbox = []) (hw : s.waiting = none) : fetch s = .settled s := by
  unfold fetch; rw [hi, hw]

theorem fetch_word {p : PortWord} {rest : List Event} (hi : s.inbox = .word p :: rest) (hw : s.waiting = none) :
    fetch s = accept p { s with inbox := rest } := by
  unfold fetch; rw [hi, hw]

/-- What stands at the head of the inbox. -/
theorem inbox_cases (s : State) :
    s.inbox = [] ∨ (∃ rest, s.inbox = .reset :: rest) ∨ ∃ p rest, s.inbox = .word p :: rest := by
  rcases s.inbox with _ | ⟨_ | _, rest⟩ <;> simp

/-- A step that answers a next state is one of five: reset, an operation that goes on or waits, nothing to do, an illegal
command answered, an instruction run. -/
theorem step_cases (h : step s = .next t) :
    (∃ rest, s.inbox = .reset :: rest ∧ t = State.assertReset { s with inbox := rest }) ∨
      (∃ w, s.waiting = some w ∧ (∀ rest, s.inbox ≠ .reset :: rest) ∧ t = resume s w) ∨
      (s.waiting = none ∧ s.inbox = [] ∧ t = s) ∨
      (∃ w rest e, s.waiting = none ∧ s.inbox = .word (.command w) :: rest ∧ decodeCommand w = .error e ∧
        t = (State.record { s with inbox := rest } (.command w)).respond .illegal) ∨
      ∃ p rest i, s.waiting = none ∧ s.inbox = .word p :: rest ∧ decode s.frame.isEmpty p = .ok i ∧
        exec i (State.record { s with inbox := rest } p) = .next t := by
  unfold step at h
  rcases Option.eq_none_or_eq_some s.waiting with hw | ⟨w, hw⟩
  · rcases inbox_cases s with hb | ⟨rest, hb⟩ | ⟨p, rest, hb⟩
    · rw [fetch_idle hb hw] at h
      cases h; exact .inr (.inr (.inl ⟨hw, hb, rfl⟩))
    · rw [fetch_reset hb] at h
      cases h; exact .inl ⟨rest, hb, rfl⟩
    · rw [fetch_word hb hw] at h
      unfold accept at h
      split at h
      · rename_i u hu
        split at hu <;> cases hu
        · rename_i hd
          cases p with
          | command w => cases h; exact .inr (.inr (.inr (.inl ⟨w, rest, _, hw, hb, hd, rfl⟩)))
          | frame w => exact absurd (decodeFrame_error hd) (by decide)
          | pad w => exact absurd (decodePad_error hd) (by decide)
        · rename_i hd
          cases p with
          | command w => cases h; exact .inr (.inr (.inr (.inl ⟨w, rest, _, hw, hb, hd, rfl⟩)))
          | frame w => exact absurd (decodeFrame_error hd) (by decide)
          | pad w => exact absurd (decodePad_error hd) (by decide)
      · cases h
      · rename_i i u hu
        split at hu <;> cases hu
        rename_i hd
        exact .inr (.inr (.inr (.inr ⟨p, rest, i, hw, hb, hd, h⟩)))
  · rcases inbox_cases s with hb | ⟨rest, hb⟩ | ⟨p, rest, hb⟩
    · rw [fetch_waiting (by simp [hb]) hw] at h
      cases h; exact .inr (.inl ⟨w, hw, by simp [hb], rfl⟩)
    · rw [fetch_reset hb] at h
      cases h; exact .inl ⟨rest, hb, rfl⟩
    · rw [fetch_waiting (by simp [hb]) hw] at h
      cases h; exact .inr (.inl ⟨w, hw, by simp [hb], rfl⟩)

/-! ## Completing and resuming -/

/-- Completing an operation logs its calls, answers once, and touches neither inbox, answers, waiting nor parameters. -/
@[simp] theorem State.complete_inbox (s : State) (w : Waiting) (r : TResult) : (s.complete w r).inbox = s.inbox := by
  cases w <;> cases r <;> rfl
@[simp] theorem State.complete_answers (s : State) (w : Waiting) (r : TResult) : (s.complete w r).answers = s.answers := by
  cases w <;> cases r <;> rfl
@[simp] theorem State.complete_waiting (s : State) (w : Waiting) (r : TResult) : (s.complete w r).waiting = s.waiting := by
  cases w <;> cases r <;> rfl
@[simp] theorem State.complete_params (s : State) (w : Waiting) (r : TResult) : (s.complete w r).params = s.params := by
  cases w <;> cases r <;> rfl

theorem State.complete_responses (s : State) (w : Waiting) (r : TResult) :
    (s.complete w r).responses = s.responses ++ [statusWord r.status] := by
  cases w <;> cases r <;> rfl

theorem resume_nil {w : Waiting} (h : s.answers = []) : resume s w = s := by
  unfold resume; rw [h]

theorem resume_cons {w : Waiting} {r : TResult} {rest : List TResult} (h : s.answers = r :: rest) :
    resume s w = State.complete { s with answers := rest, waiting := none } w r := by
  unfold resume; rw [h]

/-- A transport call waits while no answer is there, and completes with the next one otherwise. -/
theorem State.callTransport_cases (s : State) (w : Waiting) :
    (s.answers = [] ∧ s.callTransport w = { s with waiting := some w }) ∨
      ∃ r rest, s.answers = r :: rest ∧ s.callTransport w = State.complete { s with answers := rest, waiting := none } w r := by
  obtain ⟨l, h⟩ : ∃ l, s.answers = l := ⟨_, rfl⟩
  cases l with
  | nil => exact .inl ⟨h, State.callTransport_nil w h⟩
  | cons r rest => exact .inr ⟨r, rest, h, State.callTransport_cons w h⟩

/-- A waiting operation stays as it is while no answer is there, and completes with the next one otherwise. -/
theorem resume_cases (s : State) (w : Waiting) :
    (s.answers = [] ∧ resume s w = s) ∨
      ∃ r rest, s.answers = r :: rest ∧ resume s w = State.complete { s with answers := rest, waiting := none } w r := by
  obtain ⟨l, h⟩ : ∃ l, s.answers = l := ⟨_, rfl⟩
  cases l with
  | nil => exact .inl ⟨h, resume_nil h⟩
  | cons r rest => exact .inr ⟨r, rest, h, resume_cons h⟩

@[simp] theorem State.callTransport_inbox (s : State) (w : Waiting) : (s.callTransport w).inbox = s.inbox := by
  rcases s.callTransport_cases w with ⟨-, h⟩ | ⟨r, rest, -, h⟩ <;> simp [h]
@[simp] theorem State.callTransport_params (s : State) (w : Waiting) : (s.callTransport w).params = s.params := by
  rcases s.callTransport_cases w with ⟨-, h⟩ | ⟨r, rest, -, h⟩ <;> simp [h]

/-! ## Everything an instruction can do -/

/-- What an instruction that answers a next state has done. -/
inductive Effect (i : Instr) (s t : State) : Prop where
  /-- It has answered with a status and nothing else, with none of the two that only fetching or the transport give. -/
  | answers (st : Status) (h : st ≠ .illegal ∧ st ≠ .transport) (ht : t = s.respond st)
  /-- GET has answered with data. -/
  | reads (idx : BitVec 16) (hi : i = .get idx) (hm : s.mode = .ready) (r g b : Byte) (p : BitVec 12) (ht : t = s.give (responseWord .ok 1 r g b p))
  /-- SETGB has set GB. -/
  | brightens (val : BitVec 8) (hi : i = .setgb val) (hm : s.mode = .ready) (g : BitVec 5) (ht : t = State.respond { s with gb := g } .ok)
  /-- A pixel has been stored. -/
  | stores (hi : (∃ idx r g b, i = .set idx r g b) ∨ (∃ idx r g b pct, i = .setb idx r g b pct) ∨ ∃ idx c pct, i = .setp idx c pct)
      (hm : s.mode = .ready) (j : Nat) (hj : j < s.numleds.toNat) (r g b : Byte) (q : BitVec 5)
      (ht : t = State.respond { s with buf := Memory.write s.buf (4 * j) (pixelBytes s.order r g b q) } .ok)
  /-- ROT has shifted the buffer. -/
  | rotates (pos : BitVec 16) (hi : i = .rot pos) (hm : s.mode = .ready) (old : List Byte) (ho : s.memRead 0 s.bufLen = .ok old)
      (ht : t = State.respond { s with
        buf := Memory.write s.buf 0 (shiftBy s.params.rotDir (4 * rotateAmount pos s.numleds) old) } .ok)
  /-- CONFIG has asked for the transport. -/
  | acquires (n : BitVec 16) (tg g : BitVec 8) (hr k : BitVec 1) (hi : i = .config n tg g hr k) (hm : s.mode = .unconfigured)
      (he : configError n g 1 = none) (ht : t = s.callTransport (.acquire n tg g hr))
  /-- SHOW has handed over its frame. -/
  | shows (hi : i = .showFrame) (hm : s.mode = .ready) (f : List Byte) (hf : s.buildFrame = .ok f)
      (ht : t = State.callTransport { s with frame := f } .showFrame)
  /-- CLEAR or TEARDOWN has blanked the buffer and handed over its frame. -/
  | blanks (hm : s.mode = .ready) (w : Waiting) (hw : i = .clear ∧ w = .clear ∨ i = .teardown ∧ w = .teardown) (f : List Byte)
      (hf : s.blanked.buildFrame = .ok f) (ht : t = State.callTransport { s.blanked with frame := f } w)
  /-- A wire frame has put its bytes. -/
  | puts (hi : i = .startFrame ∨ (∃ q x y z, i = .pixelFrame q x y z) ∨ i = .resetFrame ∨ i = .endPadByte) (f : List Byte) (ht : t = { s with frame := f })

theorem effect_notready {i : Instr} (ht : t = s.respond .notready) : Effect i s t :=
  .answers .notready ⟨by decide, by decide⟩ ht

/-- The write instructions' effects. -/
theorem whenReady_setPixel_effect {i : Instr} {idx : BitVec 16} {r g b : Byte} {pct : BitVec 8}
    (hi : (∃ idx r g b, i = .set idx r g b) ∨ (∃ idx r g b pct, i = .setb idx r g b pct) ∨ ∃ idx c pct, i = .setp idx c pct)
    (h : whenReady s (setPixel idx r g b pct) = .next t) : Effect i s t := by
  rcases whenReady_setPixel_cases h with ⟨-, ht⟩ | ⟨-, -, ht⟩ | ⟨j, hm, hj, ht⟩
  · exact effect_notready ht
  · exact .answers .ok ⟨by decide, by decide⟩ ht
  · exact .stores hi hm j (pixelIndex_eq_some.1 hj).2 _ _ _ _ ht

/-- An instruction that answers a next state has had one of the effects. -/
theorem exec_effect {i : Instr} (h : exec i s = .next t) : Effect i s t := by
  cases i with
  | set idx r g b => exact whenReady_setPixel_effect (.inl ⟨idx, r, g, b, rfl⟩) h
  | setb idx r g b pct => exact whenReady_setPixel_effect (.inr (.inl ⟨idx, r, g, b, pct, rfl⟩)) h
  | setp idx c pct => exact whenReady_setPixel_effect (.inr (.inr ⟨idx, c, pct, rfl⟩)) h
  | get idx =>
    rcases exec_get_next h with ⟨st, hst, ht⟩ | ⟨hm, r, g, b, p, ht⟩
    · exact .answers st (by rcases hst with rfl | rfl | rfl <;> decide) ht
    · exact .reads idx rfl hm r g b p ht
  | rot pos =>
    rcases exec_rot_next h with ⟨-, ht⟩ | ⟨old, hm, hold, ht⟩
    · exact effect_notready ht
    · exact .rotates pos rfl hm old hold ht
  | setgb val =>
    rcases s.mode_cases with hm | hm
    · change execSetgb val s = _ at h
      unfold execSetgb at h
      rw [whenReady_unconfigured hm] at h
      cases h; exact effect_notready rfl
    · rw [exec_setgb_ready hm] at h
      split at h
      · cases h; exact .answers .cfgBrightness ⟨by decide, by decide⟩ rfl
      · cases h; exact .brightens val rfl hm _ rfl
  | config n tg g hr k =>
    rw [exec_config] at h
    split at h
    · cases h; exact .answers .already ⟨by decide, by decide⟩ rfl
    · rename_i e _ he
      cases h
      exact .answers e (by rcases configError_status he with rfl | rfl | rfl <;> decide) rfl
    · rename_i hm he
      cases h
      have hk := configError_eq_none.1 he
      exact .acquires n tg g hr k rfl hm (configError_eq_none.2 ⟨hk.1, hk.2.1, rfl, hk.2.2.2⟩) rfl
  | showFrame =>
    rcases s.mode_cases with hm | hm
    · change execShowFrame s = _ at h
      unfold execShowFrame at h
      rw [whenReady_unconfigured hm] at h
      cases h; exact effect_notready rfl
    · rw [exec_showFrame_ready hm, State.flush_eq_next] at h
      obtain ⟨f, hf, ht⟩ := h
      exact .shows rfl hm f hf ht
  | clear =>
    rcases s.mode_cases with hm | hm
    · change execClear s = _ at h
      unfold execClear at h
      rw [whenReady_unconfigured hm] at h
      cases h; exact effect_notready rfl
    · rw [exec_clear_ready hm, State.flush_eq_next] at h
      obtain ⟨f, hf, ht⟩ := h
      exact .blanks hm .clear (.inl ⟨rfl, rfl⟩) f hf ht
  | teardown =>
    rcases s.mode_cases with hm | hm
    · rw [exec_teardown_unconfigured hm] at h
      cases h; exact .answers .ok ⟨by decide, by decide⟩ rfl
    · rw [exec_teardown_ready hm, State.flush_eq_next] at h
      obtain ⟨f, hf, ht⟩ := h
      exact .blanks hm .teardown (.inr ⟨rfl, rfl⟩) f hf ht
  | startFrame => cases h; exact .puts (.inl rfl) _ rfl
  | pixelFrame q x y z => cases h; exact .puts (.inr (.inl ⟨q, x, y, z, rfl⟩)) _ rfl
  | resetFrame => cases h; exact .puts (.inr (.inr (.inl rfl))) _ rfl
  | endPadByte => cases h; exact .puts (.inr (.inr (.inr rfl))) _ rfl

end Sys2Proof.Machine
end

