-- ==== Sys2Proof/Tests/Slice0.lean ====
section
/-! SUPPORT. The model's own tests. Expected values come from spec/95_test_vectors.md (V1 to V8), 30_encoding.md and
20_memory.md; the comment of each test names its source. The witnesses at the end show that the hypotheses of each
obligation can be met together. -/

namespace Sys2Proof.Tests

open Sys2Proof.Machine

/-! ## Small states -/

/-- A READY state with n LEDs, an order, a global brightness, the reset-frame option and the bytes of the buffer. -/
def ready (n : BitVec 11) (order : Order) (gb : BitVec 5) (h : BitVec 1) (bytes : List Byte) : State :=
  { State.reset with mode := .ready, numleds := n, order := order, gb := gb, hasreset := h, buf := Memory.ofBytes 0 bytes }

/-- The state with a command word presented and these answers of the transport to come. -/
def given (s : State) (w : Nat) (answers : List TResult) : State :=
  { s.withFetchWord 64 w with answers := answers }

/-- What a test looks at: the bytes of the buffer, the responses, the transport history. -/
def seen : Host.Outcome State Fault Refusal → Option (List Byte × List CmdWord × List Call)
  | .next t => some (t.buf.map Prod.snd, t.responses, t.th)
  | .fault _ => none
  | .refused _ => none

/-- The next state, for a witness. -/
def nextOf : Host.Outcome State Fault Refusal → State
  | .next t => t
  | .fault _ => State.reset
  | .refused _ => State.reset

/-- The rgb order of the default table (R74). -/
def rgb : Order := ⟨3, 2, 1⟩
/-- The bgr order of the default table (R74). -/
def bgr : Order := ⟨1, 2, 3⟩
/-- The state after V4.1. -/
def afterV41 : State := ready 2 rgb 31 1 [0xFF, 0, 0, 0xFF, 0xE0, 0, 0, 0]
/-- The state after V4.2. -/
def afterV42 : State := ready 2 rgb 31 1 [0xFF, 0, 0, 0xFF, 0xF0, 0x33, 0x22, 0x11]
/-- One pixel, as CONFIG leaves it. -/
def one : State := ready 1 bgr 4 1 [0xE0, 0, 0, 0]
/-- The state of V4.10 after its write, with `GB` = 0. -/
def dark : State := ready 1 bgr 0 0 [0xE0, 9, 8, 7]
/-- Five pixels A B C D E (V5), each of four like bytes under its own header. -/
def five : State :=
  ready 5 bgr 31 0 [0xE1, 1, 1, 1, 0xE2, 2, 2, 2, 0xE3, 3, 3, 3, 0xE4, 4, 4, 4, 0xE5, 5, 5, 5]

/-! ## Well-formedness: each check refuses an ill-formed term -/

theorem test_order_legal : ([⟨1, 2, 3⟩, ⟨1, 3, 2⟩, ⟨2, 1, 3⟩, ⟨2, 3, 1⟩, ⟨3, 1, 2⟩, ⟨3, 2, 1⟩] : List Order).all Order.legal = true := by
  decide
theorem test_order_zero_red : Order.legal ⟨0, 1, 2⟩ = false := by decide
theorem test_order_zero_green : Order.legal ⟨1, 0, 2⟩ = false := by decide
theorem test_order_zero_blue : Order.legal ⟨1, 2, 0⟩ = false := by decide
theorem test_order_red_is_green : Order.legal ⟨1, 1, 2⟩ = false := by decide
theorem test_order_green_is_blue : Order.legal ⟨1, 2, 2⟩ = false := by decide
theorem test_order_red_is_blue : Order.legal ⟨1, 2, 1⟩ = false := by decide
theorem test_map_default_legal : Config.defaultOrderMap.legal = true := by decide
theorem test_map_repeats : OrderMap.legal { Config.defaultOrderMap with bgr := ⟨3, 2, 1⟩ } = false := by decide
theorem test_map_holds_illegal : OrderMap.legal { Config.defaultOrderMap with bgr := ⟨1, 1, 3⟩ } = false := by decide
theorem test_params_illegal_map :
    Params.legal { Config.defaultParams with orderMap := { Config.defaultOrderMap with bgr := ⟨3, 2, 1⟩ } } = false := by decide
theorem test_source_config :
    [Source.config 65536 0 0 0 0, .config 1 256 0 0 0, .config 1 0 256 0 0, .config 1 0 0 2 0, .config 1 0 0 0 2,
      .config (-1) 0 0 0 0].all (fun s => !s.wellFormed) = true := by decide
theorem test_source_set :
    [Source.set 32768 0 0 0, .set (-32769) 0 0 0, .set 0 256 0 0, .set 0 0 256 0, .set 0 0 0 256].all
      (fun s => !s.wellFormed) = true := by decide
theorem test_source_setb :
    [Source.setb 32768 0 0 0 0, .setb 0 256 0 0 0, .setb 0 0 256 0 0, .setb 0 0 0 256 0, .setb 0 0 0 0 256].all
      (fun s => !s.wellFormed) = true := by decide
theorem test_source_setp :
    [Source.setp 32768 0 0, .setp 0 16777216 0, .setp 0 0 256].all (fun s => !s.wellFormed) = true := by decide
theorem test_source_signed_and_byte :
    [Source.get 32768, .get (-32769), .rot 32768, .rot (-32769), .setgb 256, .setgb (-1)].all
      (fun s => !s.wellFormed) = true := by decide
theorem test_source_in_range :
    [Source.config 65535 255 255 1 1, .set (-32768) 255 255 255, .setb 32767 0 0 0 255, .setp 0 16777215 255, .get (-1),
      .rot 32767, .setgb 255, .showFrame, .clear, .teardown].all Source.wellFormed = true := by decide

/-! ## Decoding: words of the spec -/

/-- V6.1. -/
theorem test_decode_config : decodeTableWord 64 0x100020000001FC00 = some (.config 2 0 31 1 1) := by decide
/-- V6.4 and V6.10: every field apart. -/
theorem test_decode_config_fields :
    decodeTableWord 64 0x1001100000004000 = some (.config 17 0 4 0 0) ∧
      decodeTableWord 64 0x10011FF000004400 = some (.config 17 255 4 0 1) := by decide
/-- V4.6. -/
theorem test_decode_set : decodeTableWord 64 0x2FFFF09090900000 = some (.set (-1) 9 9 9) := by decide
/-- V4.2. -/
theorem test_decode_setb : decodeTableWord 64 0x3000111223332000 = some (.setb 1 0x11 0x22 0x33 50) := by decide
/-- V4.3. -/
theorem test_decode_setp : decodeTableWord 64 0x4000111223332000 = some (.setp 1 0x112233 50) := by decide
/-- V4.9. -/
theorem test_decode_get : decodeTableWord 64 0x5800000000000000 = some (.get (-32768)) := by decide
/-- V5.7. -/
theorem test_decode_rot : decodeTableWord 64 0x6303900000000000 = some (.rot 12345) := by decide
/-- V6.17. -/
theorem test_decode_setgb : decodeTableWord 64 0x70000000000FF000 = some (.setgb 255) := by decide
/-- V8.12, V8.15, V6.19. -/
theorem test_decode_no_operands :
    decodeTableWord 64 0x8000000000000000 = some .showFrame ∧ decodeTableWord 64 0x9000000000000000 = some .clear ∧
      decodeTableWord 64 0xA000000000000000 = some .teardown := by decide
/-- R76, R78: the same bits, told apart by position; R79. -/
theorem test_decode_zero_frames :
    decode true (.frame 0) = .ok .startFrame ∧ decode false (.frame 0) = .ok .resetFrame ∧
      decode false (.pad 0) = .ok .endPadByte := ⟨rfl, rfl, rfl⟩
/-- R77, the bits written out: 111 10000, then 0x33, 0x22, 0x11 (V7.3's second pixel). -/
theorem test_decode_pixel : decode false (.frame 0b11110000001100110010001000010001) = .ok (.pixelFrame 16 0x33 0x22 0x11) := by
  rfl
/-- A wire word that is no frame: neither zero nor marked 111. -/
theorem test_decode_no_frame : decode false (.frame 0xC0000000) = .error .noSuchFrame ∧ decode false (.pad 1) = .error .noSuchFrame :=
  ⟨rfl, rfl⟩
/-- V8.1 to V8.11: the illegal words. -/
theorem test_decode_illegal :
    [0x0000000000000000, 0xB000000000000000, 0xF000000000000000, 0x8000000000000001, 0x5000200000000001, 0x20000FF000000001,
      0x20000FF000064000, 0x3000111223332800, 0x7000100000008000, 0x100020000001FE00, 0x1000200100004C00].all
      (fun w => (decodeTableWord 64 w).isNone) = true := by decide
/-- The encoder on the same vectors (V4.2, V4.3, V6.1, V6.16, V5.2). -/
theorem test_encode :
    encode (.setb 1 0x11 0x22 0x33 50) = .command 0x3000111223332000 ∧
      encode (.setp 1 0x112233 50) = .command 0x4000111223332000 ∧
      encode (.config 2 0 31 1 1) = .command 0x100020000001FC00 ∧
      encode (.setgb 32) = .command 0x7000000000020000 ∧ encode (.rot (-1)) = .command 0x6FFFF00000000000 := by decide
/-- 20_memory.md R42 on V7.3's header: `0xF0` is the bit sequence 1, 1, 1, 1, 0, 0, 0, 0. -/
theorem test_wire_bits : wireBits [0xF0] = [true, true, true, true, false, false, false, false] := by decide
/-- R81: a program text with a comment, an empty line and a minus sign. -/
theorem test_assemble :
    assemble ["CONFIG 2, grb, 0x1F, 0, 1 ; two".toList, "".toList, "ROT -1".toList, "SHOW".toList] =
      some [.config 2 2 31 0 1, .rot (-1), .showFrame] := by decide
/-- R61: an operand that does not fit its field is no command. -/
theorem test_assemble_out_of_range : assemble ["SETGB 256".toList] = none := by decide

/-! ## Operands -/

/-- V1: the percentage to the stored quintet, with the wrap above 100 percent. -/
theorem test_quintet :
    [(100, 31), (0, 31), (1, 31), (50, 31), (50, 0), (99, 1), (26, 4), (101, 31), (104, 31), (200, 31), (255, 31), (255, 1)].map
      (fun x : BitVec 8 × BitVec 5 => (quintet x.1 x.2).toNat) = [31, 0, 1, 16, 0, 1, 2, 0, 1, 30, 16, 3] := by decide
/-- V2: the quintet back to a percentage. -/
theorem test_recon :
    [(0, 31), (1, 31), (16, 31), (31, 1), (31, 4), (16, 8), (1, 3), (2, 3)].map
      (fun x : BitVec 5 × BitVec 5 => (recon x.1 x.2).toNat) = [0, 3, 51, 3100, 775, 200, 33, 66] := by decide
/-- V5's fmod table. -/
theorem test_rotate_amount :
    [(4, 5), (7, 5), (-1, 5), (-7, 5), (-100, 3), (-3, 1), (1025, 1024), (32767, 1024), (-32768, 1024)].map
      (fun x : BitVec 16 × BitVec 11 => rotateAmount x.1 x.2) = [4, 2, 4, 3, 2, 0, 1, 1023, 0] := by decide
/-- V3: the end padding. -/
theorem test_padding :
    [1, 15, 16, 17, 32, 33, 100, 1008, 1009, 1024].map (fun n : BitVec 11 => State.padLen { State.reset with numleds := n }) =
      [1, 1, 1, 2, 2, 3, 7, 63, 64, 64] := by decide
/-- V4: the six orders. -/
theorem test_orders :
    [⟨1, 2, 3⟩, ⟨1, 3, 2⟩, ⟨2, 1, 3⟩, ⟨2, 3, 1⟩, ⟨3, 1, 2⟩, ⟨3, 2, 1⟩].map (fun o => pixelBytes o 0x11 0x22 0x33 31) =
      [[0xFF, 0x11, 0x22, 0x33], [0xFF, 0x11, 0x33, 0x22], [0xFF, 0x22, 0x11, 0x33], [0xFF, 0x33, 0x11, 0x22],
        [0xFF, 0x22, 0x33, 0x11], [0xFF, 0x33, 0x22, 0x11]] := by decide

/-! ## One step each -/

/-- V6.1. -/
theorem test_config :
    seen (step (given State.reset 0x100020000001FC00 [.ok])) =
      some ([0xE0, 0, 0, 0, 0xE0, 0, 0, 0], [0], [.acquire .ok]) := by decide
/-- V6.11 and, for the order of the checks, V6.6. -/
theorem test_config_fails :
    seen (step (given State.reset 0x1000105000004C00 [.err])) = some ([], [0x4000000000000000], [.acquire .err]) ∧
      seen (step (given State.reset 0x1000000000020000 [.ok])) = some ([], [0x1000000000000000], []) := by decide
/-- V4.1. -/
theorem test_set :
    seen (step (given (ready 2 rgb 31 1 [0xE0, 0, 0, 0, 0xE0, 0, 0, 0]) 0x20000FF000000000 [])) =
      some ([0xFF, 0, 0, 0xFF, 0xE0, 0, 0, 0], [0], []) := by decide
/-- V4.7: the index NUMLEDS is out of range and nothing changes. -/
theorem test_set_out_of_range :
    seen (step (given afterV42 0x2000209090900000 [])) =
      some ([0xFF, 0, 0, 0xFF, 0xF0, 0x33, 0x22, 0x11], [0], []) := by decide
/-- V4.2. -/
theorem test_setb :
    seen (step (given afterV41 0x3000111223332000 [])) =
      some ([0xFF, 0, 0, 0xFF, 0xF0, 0x33, 0x22, 0x11], [0], []) := by decide
/-- V4.14: the percentage 255 wraps. -/
theorem test_setb_wraps :
    seen (step (given (ready 1 rgb 31 0 [0xE0, 0, 0, 0]) 0x30000010203FF000 [])) = some ([0xF0, 3, 2, 1], [0], []) := by
  decide
/-- V4.3. -/
theorem test_setp :
    seen (step (given afterV41 0x4000111223332000 [])) =
      some ([0xFF, 0, 0, 0xFF, 0xF0, 0x33, 0x22, 0x11], [0], []) := by decide
/-- V4.4. -/
theorem test_get :
    seen (step (given afterV42 0x5000100000000000 [])) =
      some ([0xFF, 0, 0, 0xFF, 0xF0, 0x33, 0x22, 0x11], [0x0800011223303300], []) := by decide
/-- V4.11 and V4.12: DIVZERO, after the index check. -/
theorem test_get_divzero :
    seen (step (given dark 0x5000000000000000 [])) = some ([0xE0, 9, 8, 7], [0x8000000000000000], []) ∧
      seen (step (given dark 0x5000100000000000 [])) = some ([0xE0, 9, 8, 7], [0], []) := by decide
/-- V5.1 in both directions. -/
theorem test_rot :
    seen (step (given five 0x6000100000000000 [])) =
        some ([0xE2, 2, 2, 2, 0xE3, 3, 3, 3, 0xE4, 4, 4, 4, 0xE5, 5, 5, 5, 0xE1, 1, 1, 1], [0], []) ∧
      seen (step (given { five with params := { five.params with rotDir := .towardHigher } } 0x6000100000000000 [])) =
        some ([0xE5, 5, 5, 5, 0xE1, 1, 1, 1, 0xE2, 2, 2, 2, 0xE3, 3, 3, 3, 0xE4, 4, 4, 4], [0], []) := by decide
/-- V5.5. -/
theorem test_rot_negative :
    seen (step (given five 0x6FFF900000000000 [])) =
      some ([0xE4, 4, 4, 4, 0xE5, 5, 5, 5, 0xE1, 1, 1, 1, 0xE2, 2, 2, 2, 0xE3, 3, 3, 3], [0], []) := by decide
/-- V6.13. -/
theorem test_setgb : (nextOf (step (given afterV42 0x7000000000008000 []))).gb = 8 := by decide
/-- V6.16. -/
theorem test_setgb_too_bright :
    (nextOf (step (given one 0x7000000000020000 []))).gb = 4 ∧
      seen (step (given one 0x7000000000020000 [])) = some ([0xE0, 0, 0, 0], [0x3000000000000000], []) := by decide
/-- V7.3. -/
theorem test_show :
    seen (step (given afterV42 0x8000000000000000 [.ok])) =
      some ([0xFF, 0, 0, 0xFF, 0xF0, 0x33, 0x22, 0x11], [0],
        [.write [0, 0, 0, 0, 0xFF, 0, 0, 0xFF, 0xF0, 0x33, 0x22, 0x11, 0, 0, 0, 0, 0] .ok]) := by decide
/-- V7.4. -/
theorem test_clear :
    seen (step (given (ready 2 rgb 4 0 [0xFF, 1, 2, 3, 0xFF, 1, 2, 3]) 0x9000000000000000 [.ok])) =
      some ([0xE4, 0, 0, 0, 0xE4, 0, 0, 0], [0], [.write [0, 0, 0, 0, 0xE4, 0, 0, 0, 0xE4, 0, 0, 0, 0] .ok]) := by decide
/-- P5 step 5: the buffer stays blanked when the write fails. -/
theorem test_clear_fails :
    seen (step (given (ready 1 bgr 4 1 [0xE4, 5, 6, 7]) 0x9000000000000000 [.err])) =
      some ([0xE4, 0, 0, 0], [0x4000000000000000], [.write [0, 0, 0, 0, 0xE4, 0, 0, 0, 0, 0, 0, 0, 0] .err]) := by decide
/-- V6.20. -/
theorem test_teardown :
    seen (step (given one 0xA000000000000000 [.ok])) =
      some ([], [0], [.write [0, 0, 0, 0, 0xE4, 0, 0, 0, 0, 0, 0, 0, 0] .ok, .release]) := by decide
/-- V6.19. -/
theorem test_teardown_unconfigured : seen (step (given State.reset 0xA000000000000000 [])) = some ([], [0], []) := by decide
/-- R76: a transaction begins with its four zero bytes. -/
theorem test_start_frame : (nextOf (exec .startFrame { one with frame := [7] })).frame = [0, 0, 0, 0] := by decide
/-- R77. -/
theorem test_pixel_frame : (nextOf (exec (.pixelFrame 16 0x33 0x22 0x11) one)).frame = [0xF0, 0x33, 0x22, 0x11] := by decide
/-- R78. -/
theorem test_reset_frame : (nextOf (exec .resetFrame { one with frame := [7] })).frame = [7, 0, 0, 0, 0] := by decide
/-- R79. -/
theorem test_end_pad_byte : (nextOf (exec .endPadByte { one with frame := [7] })).frame = [7, 0] := by decide
/-- V8.4: an illegal word is answered in either mode. -/
theorem test_illegal :
    seen (step (given State.reset 0x8000000000000001 [])) = some ([], [0x7000000000000000], []) ∧
      seen (step (given one 0x8000000000000001 [])) = some ([0xE0, 0, 0, 0], [0x7000000000000000], []) := by decide
/-- V8.12; and 70_reset_and_hazards.md R197: an unanswered SHOW leaves LFE waiting, with no response. -/
theorem test_show_not_sent :
    seen (step (given State.reset 0x8000000000000000 [.ok])) = some ([], [0x5000000000000000], []) ∧
      seen (step (given one 0x8000000000000000 [])) = some ([0xE0, 0, 0, 0], [], []) ∧
      (nextOf (step (given one 0x8000000000000000 []))).waiting = some .showFrame := by decide

/-! ## Witnesses: states and operands that meet the hypotheses of the obligations -/

/-- One pixel, SHOW in progress and unanswered. -/
def waitingShow : State := { nextOf (step (given one 0x8000000000000000 [])) with inbox := [.word (.command 0x5000000000000000)] }
/-- The same, with an answer there. -/
def answeredShow : State := { waitingShow with answers := [.ok] }

theorem witness_decodedWordIsItsEncoding : decode true (.command 0x3000111223332000) = .ok (.setb 1 0x11 0x22 0x33 50) := by rfl
theorem witness_legality_illegal :
    (given one 0x8000000000000001 []).waiting = none ∧
      (given one 0x8000000000000001 []).inbox = .word (.command 0x8000000000000001) :: [] ∧
      decodeCommand 0x8000000000000001 = .error .reservedBits := ⟨rfl, rfl, rfl⟩
theorem witness_legality_legal :
    decodeCommand 0x5000000000000000 = .ok (.get 0) ∧ exec (.get 0) one = .next (nextOf (exec (.get 0) one)) := ⟨rfl, rfl⟩
theorem witness_setpWordActsAsSetbWord :
    field (0x3000111223332000 : CmdWord) 60 4 = 3 ∧ field (0x4000111223332000 : CmdWord) 60 4 = 4 ∧
      field (0x3000111223332000 : CmdWord) 0 60 = field (0x4000111223332000 : CmdWord) 0 60 ∧
      decodeCommand 0x3000111223332000 = .ok (.setb 1 0x11 0x22 0x33 50) ∧
      decodeCommand 0x4000111223332000 = .ok (.setp 1 0x112233 50) := ⟨rfl, rfl, rfl, rfl, rfl⟩
theorem witness_stepRunsDecodedInstruction :
    (given one 0x5000000000000000 []).waiting = none ∧
      (given one 0x5000000000000000 []).inbox = .word (.command 0x5000000000000000) :: [] ∧
      decode (given one 0x5000000000000000 []).frame.isEmpty (.command 0x5000000000000000) = .ok (.get 0) := ⟨rfl, rfl, rfl⟩
theorem witness_waiting_unanswered :
    waitingShow.waiting = some .showFrame ∧ (∀ rest, waitingShow.inbox ≠ .reset :: rest) ∧ waitingShow.answers = [] := by
  refine ⟨rfl, fun rest h => ?_, rfl⟩
  simp [waitingShow] at h
theorem witness_waiting_answered :
    answeredShow.waiting = some .showFrame ∧ (∀ rest, answeredShow.inbox ≠ .reset :: rest) ∧ answeredShow.answers = .ok :: [] := by
  refine ⟨rfl, fun rest h => ?_, rfl⟩
  simp [answeredShow, waitingShow] at h
theorem witness_idle : one.waiting = none ∧ one.inbox = [] := ⟨rfl, rfl⟩
theorem witness_resetInput : ({ waitingShow with inbox := [.reset] } : State).inbox = .reset :: [] := rfl
theorem witness_oneResponse_answered :
    (given one 0x5000000000000000 []).waiting = none ∧
      (given one 0x5000000000000000 []).inbox = .word (.command 0x5000000000000000) :: [] ∧
      step (given one 0x5000000000000000 []) = .next (nextOf (step (given one 0x5000000000000000 []))) := ⟨rfl, rfl, rfl⟩
theorem witness_oneResponse_waiting :
    (given one 0x8000000000000000 []).waiting = none ∧
      (given one 0x8000000000000000 []).inbox = .word (.command 0x8000000000000000) :: [] ∧
      step (given one 0x8000000000000000 []) = .next (nextOf (step (given one 0x8000000000000000 []))) := ⟨rfl, rfl, rfl⟩
theorem witness_refused : step (one.withFetchWord 32 1) = .refused .notAWireFrame := rfl

theorem witness_pseudo : (sourceOf "ROT".toList []).isSome = true ∧ ("ROT".toList, ([] : List (List Char)).length) = ("ROT".toList, 0) := by
  decide
theorem witness_unconfigured : State.reset.mode = .unconfigured := rfl
theorem witness_pixel_last : afterV42.mode = .ready ∧ afterV42.order.legal = true ∧ sint 1 = (1 : Nat) ∧ 1 < afterV42.numleds.toNat := by
  decide
theorem witness_pixel_first : afterV42.mode = .ready ∧ afterV42.order.legal = true ∧ sint 0 = (0 : Nat) ∧ 0 < afterV42.numleds.toNat := by
  decide
theorem witness_pixel_below : afterV42.mode = .ready ∧ afterV42.order.legal = true ∧ sint (-1) < 0 := by decide
theorem witness_pixel_above :
    afterV42.mode = .ready ∧ afterV42.order.legal = true ∧ (afterV42.numleds.toNat : Int) ≤ sint 2 := by decide
theorem witness_get_divzero : dark.mode = .ready ∧ sint 0 = (0 : Nat) ∧ 0 < dark.numleds.toNat ∧ dark.gb = 0 := by decide
theorem witness_get_data :
    afterV42.mode = .ready ∧ sint 1 = (1 : Nat) ∧ 1 < afterV42.numleds.toNat ∧ afterV42.gb ≠ 0 ∧
      Memory.read afterV42.buf (4 * 1) = some 0xF0 ∧ Memory.read afterV42.buf (4 * 1 + afterV42.order.r.toNat) = some 0x11 ∧
      Memory.read afterV42.buf (4 * 1 + afterV42.order.g.toNat) = some 0x22 ∧
      Memory.read afterV42.buf (4 * 1 + afterV42.order.b.toNat) = some 0x33 := by decide

theorem witness_colour_set :
    exec (.set 1 1 2 3) afterV42 = .next (nextOf (exec (.set 1 1 2 3) afterV42)) ∧
      (nextOf (exec (.set 1 1 2 3) afterV42)).mode = .ready ∧ (nextOf (exec (.set 1 1 2 3) afterV42)).gb ≠ 0 :=
  ⟨rfl, rfl, by decide⟩
theorem witness_colour_setb :
    exec (.setb 1 1 2 3 255) afterV42 = .next (nextOf (exec (.setb 1 1 2 3 255) afterV42)) ∧
      (nextOf (exec (.setb 1 1 2 3 255) afterV42)).mode = .ready ∧ (nextOf (exec (.setb 1 1 2 3 255) afterV42)).gb ≠ 0 :=
  ⟨rfl, rfl, by decide⟩
theorem witness_colour_setp :
    exec (.setp 1 ((1 : Byte) ++ (2 : Byte) ++ (3 : Byte)) 100) afterV42 =
        .next (nextOf (exec (.setp 1 ((1 : Byte) ++ (2 : Byte) ++ (3 : Byte)) 100) afterV42)) ∧
      (nextOf (exec (.setp 1 ((1 : Byte) ++ (2 : Byte) ++ (3 : Byte)) 100) afterV42)).gb ≠ 0 := ⟨rfl, by decide⟩
/-- The brightest and the darkest percentage of the round trip, with the smallest GB. -/
theorem witness_brightness :
    [100, 0].all (fun p : BitVec 8 => 1 ≤ one.gb.toNat ∧ p.toNat ≤ 100 ∧
      (nextOf (exec (.setb 0 1 2 3 p) one)).mode = .ready ∧ (nextOf (exec (.setb 0 1 2 3 p) one)).gb = one.gb) = true ∧
      exec (.setb 0 1 2 3 100) one = .next (nextOf (exec (.setb 0 1 2 3 100) one)) ∧
      exec (.setb 0 1 2 3 0) one = .next (nextOf (exec (.setb 0 1 2 3 0) one)) := ⟨by decide, rfl, rfl⟩
theorem witness_quintet : (100#8).toNat ≤ 100 ∧ 1 ≤ (1#8).toNat ∧ 1 ≤ (1#5).toNat ∧ (0#5).toNat = 0 := by decide
theorem witness_idempotent :
    exec (.set 0 1 2 3) one = .next (nextOf (exec (.set 0 1 2 3) one)) ∧
      exec (.setb 0 1 2 3 50) one = .next (nextOf (exec (.setb 0 1 2 3 50) one)) ∧
      exec (.setp 0 0x010203 50) one = .next (nextOf (exec (.setp 0 0x010203 50) one)) := ⟨rfl, rfl, rfl⟩

theorem witness_rot : five.mode = .ready ∧ 1 ≤ five.numleds.toNat ∧ five.held := by decide
theorem witness_rotInverse :
    five.mode = .ready ∧ five.constructed ∧ sint 3 = (five.numleds.toNat : Int) - sint 7 % (five.numleds.toNat : Int) := by
  decide
theorem witness_rotInverse_run : exec (.rot 7) five = .next (nextOf (exec (.rot 7) five)) := rfl
theorem witness_rotsCompose : exec (.rot (-1)) five = .next (nextOf (exec (.rot (-1)) five)) := rfl

theorem witness_show : answeredShow.mode = .ready ∧ answeredShow.held ∧ answeredShow.answers = .ok :: [] := by decide
theorem witness_frameLength : one.buildFrame = .ok [0, 0, 0, 0, 0xE0, 0, 0, 0, 0, 0, 0, 0, 0] := rfl
theorem witness_clear : answeredShow.mode = .ready ∧ answeredShow.order.legal = true ∧ answeredShow.answers = .ok :: [] := by decide
theorem witness_teardown_unconfigured : State.reset.order.legal = true ∧ State.reset.mode = .unconfigured := by decide
theorem witness_unanswered_ready : one.answers = [] ∧ one.mode = .ready ∧ one.held := by decide
theorem witness_unanswered_config :
    State.reset.answers = [] ∧ State.reset.mode = .unconfigured ∧ 1 ≤ (1024#16).toNat ∧ (1024#16).toNat ≤ 1024 ∧
      (31#8).toNat ≤ 31 := by decide
theorem witness_answerLater :
    exec .showFrame { one with answers := [] } = .next (nextOf (exec .showFrame { one with answers := [] })) ∧
      (nextOf (exec .showFrame { one with answers := [] })).waiting ≠ none ∧
      exec (.config 1 0 4 1 1) { State.reset with answers := [] } =
        .next (nextOf (exec (.config 1 0 4 1 1) { State.reset with answers := [] })) ∧
      (nextOf (exec (.config 1 0 4 1 1) { State.reset with answers := [] })).waiting ≠ none := ⟨rfl, by decide, rfl, by decide⟩
theorem witness_answerLater_state : one.waiting = none ∧ ∀ evs, one.inbox ≠ .reset :: evs := ⟨rfl, fun evs h => by simp [one, ready, State.reset, State.resetUnder] at h⟩
theorem witness_frameIsItsWireFrames :
    one.Inv ∧ one.mode = .ready ∧ holdsBytes one.buf (4 * one.numleds.toNat) [0xE0, 0, 0, 0] := by
  refine ⟨by decide, rfl, rfl, by decide⟩
theorem witness_wireBits : 1 < ([0xE0, 0] : List Byte).length ∧ 7 < 8 := by decide

theorem witness_config_constructs :
    (given State.reset 0 [.ok]).mode = .unconfigured ∧ (given State.reset 0 [.ok]).answers = .ok :: [] ∧
      1 ≤ (1#16).toNat ∧ (1024#16).toNat ≤ 1024 ∧ (31#8).toNat ≤ 31 := by decide
theorem witness_config_fails :
    (given State.reset 0 [.err]).mode = .unconfigured ∧ (given State.reset 0 [.err]).answers = .err :: [] := by decide
/-- The operands at which each of CONFIG's checks fails. -/
theorem witness_config_checks :
    State.reset.mode = .unconfigured ∧ (0#16).toNat < 1 ∧ 1024 < (1025#16).toNat ∧ 1 ≤ (1#16).toNat ∧ (0 : BitVec 1) = 0 ∧
      31 < (32#8).toNat := by decide
theorem witness_tag : (given State.reset 0 [.ok]).answers ≠ [] ∧ 6 ≤ (6#8).toNat := by decide
theorem witness_setgb : one.mode = .ready ∧ (31#8).toNat ≤ 31 ∧ 31 < (32#8).toNat := by decide
theorem witness_modeGates : State.reset.mode = .unconfigured ∧ one.mode = .ready := ⟨rfl, rfl⟩
theorem witness_responseLayout : (∀ idx, Instr.rot 1 ≠ .get idx) ∧ exec (.rot 1) five = .next (nextOf (exec (.rot 1) five)) :=
  ⟨fun _ h => Instr.noConfusion h, rfl⟩
theorem witness_errorsArePrecise :
    Status.notready ≠ .ok ∧ Status.notready ≠ .transport ∧
      exec .showFrame State.reset = .next (nextOf (exec .showFrame State.reset)) ∧
      (nextOf (exec .showFrame State.reset)).responses = State.reset.responses ++ [statusWord .notready] := by
  exact ⟨by decide, by decide, rfl, rfl⟩
theorem witness_noTransportCall :
    exec (.get 0) one = .next (nextOf (exec (.get 0) one)) ∧ exec (.setgb 1) one = .next (nextOf (exec (.setgb 1) one)) :=
  ⟨rfl, rfl⟩

/-- A READY state in which a SETGB is presented: a step that keeps READY. -/
def brightening : State := given one 0x7000000000008000 []
theorem witness_immutable :
    brightening.Inv ∧ step brightening = .next (nextOf (step brightening)) ∧ brightening.mode = .ready ∧
      (nextOf (step brightening)).mode = .ready := ⟨by decide, rfl, rfl, rfl⟩
theorem witness_readers : exec .showFrame answeredShow = .next (nextOf (exec .showFrame answeredShow)) := rfl
theorem witness_memoryCanonical : Memory.wf brightening.buf ∧ step brightening = .next (nextOf (step brightening)) := ⟨by decide, rfl⟩
/-- The invariant also in a state that waits, and on the path of a teardown. -/
theorem witness_inv : answeredShow.Inv ∧ step answeredShow = .next (nextOf (step answeredShow)) := ⟨by decide, rfl⟩
theorem witness_inv_teardown :
    (given one 0xA000000000000000 [.err]).Inv ∧
      step (given one 0xA000000000000000 [.err]) = .next (nextOf (step (given one 0xA000000000000000 [.err]))) := ⟨by decide, rfl⟩
theorem witness_transportHeld :
    transportHeld ({ brightening with th := [.acquire .ok] } : State).th false = true ∧ brightening.mode = .ready := ⟨rfl, rfl⟩
/-- A TEARDOWN presented in READY, answered, and the state it leaves (V6.20, 70_reset_and_hazards.md R205). -/
def ending : State := given one 0xA000000000000000 [.ok]
theorem witness_teardownEndsRun :
    ending.mode = .ready ∧ ending.waiting = none ∧ ending.order.legal = true ∧
      encode .teardown = .command 0xA000000000000000 ∧ ending.inbox = .word (.command 0xA000000000000000) :: [] ∧
      ending.answers = .ok :: [] := by decide
/-- A TEARDOWN that has responded is kept by an idle step, and one that waits for its write by the answer. -/
theorem witness_teardownEnds :
    (nextOf (step ending)).teardownEnds ∧ (nextOf (step ending)).lastIsTeardown ∧
      step (nextOf (step ending)) = .next (nextOf (step (nextOf (step ending)))) ∧
      (nextOf (step (given one 0xA000000000000000 []))).teardownEnds ∧
      (nextOf (step (given one 0xA000000000000000 []))).waiting = some .teardown := by
  refine ⟨by decide, by decide, rfl, by decide, by decide⟩
/-- The other way the run can be over: reset comes next. -/
theorem witness_teardownEndsRun_reset : ([.reset] : List Event).head? = some .reset := rfl
/-- SHOW unanswered with a word and then a reset to come (R197: the reset is behind a word that is never taken). -/
def stuck : State := { waitingShow with inbox := [.word (.command 0x5000000000000000), .reset] }
theorem witness_hung : stuck.hung := by decide
/-- R205, R197: with reset next the wait is not a hang; a READY state with reset next is abandoned. -/
theorem test_reset_next :
    ¬ ({ stuck with inbox := [.reset] } : State).hung ∧ ({ one with inbox := [.reset] } : State).abandoned ∧
      ({ nextOf (step ending) with inbox := [.reset] } : State).orderlyEnded := by decide
/-- With another history and other responses, too (a SHOW that is answered). -/
theorem witness_observation :
    exec .showFrame { answeredShow with responses := [0], th := [.acquire .ok] } =
      .next (nextOf (exec .showFrame { answeredShow with responses := [0], th := [.acquire .ok] })) := rfl
/-- R205: orderly ended after TEARDOWN; no longer so when a refused command has followed (P5 steps 7 and 8), nor while a
word is to come. -/
theorem test_orderly_end :
    (nextOf (step ending)).orderlyEnded ∧
      ¬ (nextOf (step (given (nextOf (step ending)) 0x8000000000000000 []))).orderlyEnded ∧
      ¬ (given (nextOf (step ending)) 0x8000000000000000 []).orderlyEnded := by decide
theorem witness_neverHalts :
    ending.Inv ∧ ∀ p rest, ending.inbox = .word p :: rest → ∃ w, p = .command w := by
  refine ⟨by decide, fun p rest h => ?_⟩
  cases (show [Event.word (.command 0xA000000000000000)] = .word p :: rest from h)
  exact ⟨_, rfl⟩
theorem witness_resetUnder : Params.legal { Config.defaultParams with rotDir := .towardHigher } = true := by decide
theorem witness_everyWrite : allTransactions [Call.acquire .ok] := by
  intro f r h
  simp at h

end Sys2Proof.Tests
end

section
/-! PROOFS. The encoding family: the fields of a word made by appending, and the word of format K read back
(30_encoding.md R61, R70, R75). -/

namespace Sys2Proof

/-! ## Fields of appended words -/

/-- A field above the lower part is a field of the upper part. -/
theorem field_append_of_le {n m : Nat} (x : BitVec n) (y : BitVec m) {lo width : Nat} (h : m ≤ lo) :
    field (x ++ y) lo width = field x (lo - m) width :=
  BitVec.extractLsb'_append_eq_of_le h

/-- A field within the lower part is a field of it. -/
theorem field_append_of_add_le {n m : Nat} (x : BitVec n) (y : BitVec m) {lo width : Nat} (h : lo + width ≤ m) :
    field (x ++ y) lo width = field y lo width :=
  BitVec.extractLsb'_append_eq_of_add_le h

theorem field_self {w : Nat} (v : BitVec w) : field v 0 w = v := BitVec.extractLsb'_eq_self

/-- Bits that are zero in a word's masked form are zero in the word. -/
theorem and_eq_zero_of_and_eq {w mask pattern bits : CmdWord} (h : w &&& mask = pattern) (hsub : mask &&& bits = bits)
    (hz : pattern &&& bits = 0) : w &&& bits = 0 := by
  rw [← hsub, ← BitVec.and_assoc, h, hz]

/-! ## SETP's word -/

/-- The fields of a word laid out as SETP's, wherever its parts come from (R61, format K). -/
theorem setpLayout_fields (op : BitVec 4) (idx : BitVec 16) (rgb24 : BitVec 24) (pct : BitVec 8) (z : BitVec 12) :
    let w := op ++ idx ++ rgb24 ++ pct ++ z
    field w 60 4 = op ∧ field w 44 16 = idx ∧ field w 20 24 = rgb24 ∧ field w 12 8 = pct := by
  simp (disch := decide) only [field_append_of_le, field_append_of_add_le, field_self, Nat.reduceSub, and_self]

/-- A word with SETP's operation code and no reserved bit set is the SETP of its fields. -/
theorem decodeCommand_of_op_setp {w : CmdWord} (hop : field w 60 4 = 4) (hres : w &&& 0xFFF = 0) :
    decodeCommand w = .ok (.setp (field w 44 16) (field w 20 24) (field w 12 8)) := by
  have hop : opOf w = 4 := hop
  refine decodeCommand_eq_ok.2 ⟨⟨0xFFF, ?_, hres⟩, ?_⟩
  · rw [hop]; rfl
  · unfold operandsOf; rw [hop]; rfl

theorem decodeCommand_setp (idx : BitVec 16) (rgb24 : BitVec 24) (pct : BitVec 8) :
    decodeCommand (4#4 ++ idx ++ rgb24 ++ pct ++ 0#12) = .ok (.setp idx rgb24 pct) := by
  obtain ⟨hop, hidx, hrgb, hpct⟩ := setpLayout_fields 4 idx rgb24 pct 0
  have hres := and_eq_zero_of_and_eq (bits := 0xFFF) (Laws.TableMatch.setp idx rgb24 pct).2 (by decide) (by decide)
  exact (decodeCommand_of_op_setp hop hres).trans (by rw [hidx, hrgb, hpct])

end Sys2Proof
end

section
/-! PROOFS. The encoding family: header bytes and packed colours as numbers, what a pixel write leaves, the response word
and which responses an instruction gives (30_encoding.md R66, R70, R72; 41_pixel_access.md R101, R102). -/

namespace Sys2Proof.Machine

variable {s t : State}

/-! ## Header bytes, packed colours, quintets -/

theorem headerOf_eq_or (q : BitVec 5) : headerOf q = (0xE0#8 ||| q.setWidth 8) := by revert q; decide

theorem headerOf_and_mask (q : BitVec 5) : headerOf q &&& 0x1F#8 = q.setWidth 8 := by revert q; decide

theorem redOf_eq_ofNat (c : BitVec 24) : redOf c = BitVec.ofNat 8 (c.toNat / 65536) :=
  BitVec.eq_of_toNat_eq (by simp [redOf, toNat_field])

theorem greenOf_eq_ofNat (c : BitVec 24) : greenOf c = BitVec.ofNat 8 (c.toNat / 256) :=
  BitVec.eq_of_toNat_eq (by simp [greenOf, toNat_field])

theorem blueOf_eq_ofNat (c : BitVec 24) : blueOf c = BitVec.ofNat 8 c.toNat :=
  BitVec.eq_of_toNat_eq (by simp [blueOf, toNat_field])

theorem toNat_quintet (pct : BitVec 8) (gb : BitVec 5) :
    (quintet pct gb).toNat = (pct.toNat * gb.toNat + 99) / 100 % 32 := by
  simp [quintet]

/-! ## Writing one pixel -/

/-- Inside a pixel just written, each offset holds the pixel's own byte. -/
theorem Memory.read_write_pixel (m : Memory) (i : Nat) {px : List Byte} (hpx : px.length = 4) {k : Nat} (hk : k < 4) :
    Memory.read (Memory.write m (4 * i) px) (4 * i + k) = px[k]? := by
  rw [Memory.read_write, if_pos (by omega), Nat.add_sub_cancel_left]

/-- Under a legal order the pixel store leaves what R102 says. -/
theorem pixelStored_write (ho : s.order.legal = true) (i : Nat) (r g b : Byte) (q : BitVec 5) :
    pixelStored s (State.respond { s with buf := Memory.write s.buf (4 * i) (pixelBytes s.order r g b q) } .ok)
      i r g b q.toNat := by
  have hlen := pixelBytes_length s.order r g b q
  have inside {k : Nat} (hk : k < 4) := Memory.read_write_pixel s.buf i hlen hk
  obtain ⟨hhdr, hr, hg, hb⟩ := pixelBytes_get ho r g b q
  refine ⟨rfl, ?_, (inside s.order.r.isLt).trans hr, (inside s.order.g.isLt).trans hg, (inside s.order.b.isLt).trans hb,
    fun a ha => Memory.read_write_outside (by rwa [hlen])⟩
  rw [BitVec.ofNat_toNat, ← headerOf_eq_or]
  exact (inside (k := 0) (by decide)).trans hhdr

/-- A write instruction in READY stores the pixel its index names, with the quintet of its percentage. -/
theorem whenReady_setPixel_stores (hm : s.mode = .ready) (ho : s.order.legal = true) {idx : BitVec 16} {i : Nat}
    (hi : sint idx = i) (hlt : i < s.numleds.toNat) (r g b : Byte) (pct : BitVec 8) :
    ∃ t, whenReady s (setPixel idx r g b pct) = .next t ∧
      pixelStored s t i r g b ((pct.toNat * s.gb.toNat + 99) / 100 % 32) := by
  rw [whenReady_ready hm, setPixel_eq, pixelIndex_eq_some.2 ⟨hi, hlt⟩, ← toNat_quintet]
  exact ⟨_, rfl, pixelStored_write ho i r g b _⟩

/-- A write instruction in READY answers `OK` and does nothing else for an index that names no pixel. -/
theorem whenReady_setPixel_outside (hm : s.mode = .ready) {idx : BitVec 16}
    (hi : sint idx < 0 ∨ (s.numleds.toNat : Int) ≤ sint idx) (r g b : Byte) (pct : BitVec 8) :
    whenReady s (setPixel idx r g b pct) = .next (s.respond .ok) := by
  rw [whenReady_ready hm, setPixel_eq, pixelIndex_eq_none.2 hi]

/-! ## Responses -/

/-- The fields of a word laid out as a response (R66). -/
theorem responseLayout_fields (st : BitVec 4) (valid : BitVec 1) (z : BitVec 15) (red green blue : Byte) (pct : BitVec 12)
    (low : BitVec 8) :
    let w := st ++ valid ++ z ++ red ++ green ++ blue ++ pct ++ low
    field w 60 4 = st ∧ field w 59 1 = valid ∧ field w 44 15 = z ∧ field w 36 8 = red ∧ field w 28 8 = green ∧
      field w 20 8 = blue ∧ field w 8 12 = pct ∧ field w 0 8 = low := by
  simp (disch := decide) only [field_append_of_le, field_append_of_add_le, field_self, Nat.reduceSub, and_self]

/-- A transport call that is answered gives one status; one that waits gives no response. -/
theorem State.callTransport_responses (s : State) (w : Waiting) :
    (s.callTransport w).responses = s.responses ∨
      ∃ st, (s.callTransport w).responses = s.responses ++ [statusWord st] := by
  rcases s.callTransport_cases w with ⟨-, h⟩ | ⟨r, rest, -, h⟩
  · exact .inl (by rw [h])
  · exact .inr ⟨r.status, by rw [h, State.complete_responses]⟩

/-- Only GET answers with data: any other instruction adds no response or a status alone. -/
theorem exec_responses_of_ne_get {i : Instr} (hget : ∀ idx, i ≠ .get idx) (h : exec i s = .next t) :
    t.responses = s.responses ∨ ∃ st, t.responses = s.responses ++ [statusWord st] := by
  cases exec_effect h with
  | answers st _ ht => exact .inr ⟨st, by rw [ht]; rfl⟩
  | reads idx hi => exact absurd hi (hget idx)
  | brightens _ _ _ _ ht => exact .inr ⟨.ok, by rw [ht]; rfl⟩
  | stores _ _ _ _ _ _ _ _ ht => exact .inr ⟨.ok, by rw [ht]; rfl⟩
  | rotates _ _ _ _ _ ht => exact .inr ⟨.ok, by rw [ht]; rfl⟩
  | acquires n tg g hr _ _ _ _ ht => rw [ht]; exact State.callTransport_responses s (.acquire n tg g hr)
  | shows _ _ f _ ht => rw [ht]; exact State.callTransport_responses { s with frame := f } .showFrame
  | blanks _ w _ f _ ht => rw [ht]; exact State.callTransport_responses { s.blanked with frame := f } w
  | puts _ _ ht => exact .inl (by rw [ht])

/-! ## The obligations of the encoding family -/

/-- Settles O17: SETP is the common pixel write (R104) on the three bytes of its packed colour. -/
theorem setpStoresUnpackedPixel : Obligations.SetpStoresUnpackedPixel := by
  intro s idx rgb24 pct
  rw [exec_setp, redOf_eq_ofNat, greenOf_eq_ofNat, blueOf_eq_ofNat]
  exact ⟨decodeCommand_setp idx rgb24 pct, fun hm => whenReady_unconfigured hm _, fun hm ho =>
    ⟨fun _ hi hlt => whenReady_setPixel_stores hm ho hi hlt _ _ _ pct, fun hi => whenReady_setPixel_outside hm hi _ _ _ pct⟩⟩

/-- Settles O42: the layout field by field, and the cases of what an instruction can do. -/
theorem responseLayout : Obligations.ResponseLayout :=
  ⟨fun st v r g b p => responseLayout_fields st.code v 0 r g b p 0, fun _ _ _ hget h => exec_responses_of_ne_get hget h⟩

/-- Settles O7: each shorter spelling has an arm of its own with the default put in, and the last arm, for every other
spelling, answers none. -/
theorem pseudoInstructionsExpand : Obligations.PseudoInstructionsExpand := by
  refine ⟨fun _ _ _ _ => rfl, fun _ _ => rfl, rfl, fun _ _ _ => rfl, fun _ _ _ _ => rfl, fun m args => ?_⟩
  fun_cases sourceOf m args
  case case16 => exact fun h => nomatch h
  all_goals simp

/-- Settles O22, by the lemmas on header bytes. -/
theorem headerByteHoldsBrightness : Obligations.HeaderByteHoldsBrightness := fun q =>
  ⟨headerOf_eq_or q, marker_headerOf q, headerOf_and_mask q, brightnessOf_headerOf q⟩

end Sys2Proof.Machine
end

section
/-! PROOFS. The pixel family: the words of SET, SETB and GET read back (30_encoding.md formats P and I, R63, R65). -/

namespace Sys2Proof

/-! ## The operands an operation code selects -/

theorem operandsOf_of_op_set {w : CmdWord} (hop : opOf w = 2) :
    operandsOf w = some (.set (field w 44 16) (field w 36 8) (field w 28 8) (field w 20 8)) := by
  unfold operandsOf; rw [hop]; rfl

theorem operandsOf_of_op_setb {w : CmdWord} (hop : opOf w = 3) :
    operandsOf w = some (.setb (field w 44 16) (field w 36 8) (field w 28 8) (field w 20 8) (field w 12 8)) := by
  unfold operandsOf; rw [hop]; rfl

theorem operandsOf_of_op_get {w : CmdWord} (hop : opOf w = 5) : operandsOf w = some (.get (field w 44 16)) := by
  unfold operandsOf; rw [hop]; rfl

/-- A word with a known operation code, whose reserved bits are zero, decodes to the instruction its operands give. -/
theorem decodeCommand_of_op {w m : CmdWord} {op : BitVec 4} {i : Instr} (hop : opOf w = op)
    (hmask : reservedMask op = some m) (hres : w &&& m = 0) (hi : operandsOf w = some i) : decodeCommand w = .ok i :=
  decodeCommand_eq_ok.2 ⟨⟨m, hop ▸ hmask, hres⟩, hi⟩

/-! ## The words -/

/-- The fields of a word laid out as SET's, wherever its parts come from. -/
theorem setLayout_fields (op : BitVec 4) (idx : BitVec 16) (r g b : Byte) (z : BitVec 20) :
    let w := op ++ idx ++ r ++ g ++ b ++ z
    opOf w = op ∧ field w 44 16 = idx ∧ field w 36 8 = r ∧ field w 28 8 = g ∧ field w 20 8 = b := by
  simp (disch := decide) only [opOf, field_append_of_le, field_append_of_add_le, field_self, Nat.reduceSub, and_self]

/-- The fields of a word laid out as SETB's, wherever its parts come from. -/
theorem setbLayout_fields (op : BitVec 4) (idx : BitVec 16) (r g b : Byte) (pct : BitVec 8) (z : BitVec 12) :
    let w := op ++ idx ++ r ++ g ++ b ++ pct ++ z
    opOf w = op ∧ field w 44 16 = idx ∧ field w 36 8 = r ∧ field w 28 8 = g ∧ field w 20 8 = b ∧ field w 12 8 = pct := by
  simp (disch := decide) only [opOf, field_append_of_le, field_append_of_add_le, field_self, Nat.reduceSub, and_self]

/-- The fields of a word laid out as GET's, wherever its parts come from. -/
theorem getLayout_fields (op : BitVec 4) (idx : BitVec 16) (z : BitVec 44) :
    let w := op ++ idx ++ z
    opOf w = op ∧ field w 44 16 = idx := by
  simp (disch := decide) only [opOf, field_append_of_le, field_append_of_add_le, field_self, Nat.reduceSub, and_self]

theorem decodeCommand_set (idx : BitVec 16) (r g b : Byte) :
    decodeCommand (2#4 ++ idx ++ r ++ g ++ b ++ 0#20) = .ok (.set idx r g b) := by
  obtain ⟨hop, hidx, hr, hg, hb⟩ := setLayout_fields 2 idx r g b 0
  have hres := and_eq_zero_of_and_eq (bits := 0xFFFFF) (Laws.TableMatch.set idx r g b).2 (by decide) (by decide)
  exact decodeCommand_of_op hop rfl hres ((operandsOf_of_op_set hop).trans (by rw [hidx, hr, hg, hb]))

theorem decodeCommand_setb (idx : BitVec 16) (r g b : Byte) (pct : BitVec 8) :
    decodeCommand (3#4 ++ idx ++ r ++ g ++ b ++ pct ++ 0#12) = .ok (.setb idx r g b pct) := by
  obtain ⟨hop, hidx, hr, hg, hb, hpct⟩ := setbLayout_fields 3 idx r g b pct 0
  have hres := and_eq_zero_of_and_eq (bits := 0xFFF) (Laws.TableMatch.setb idx r g b pct).2 (by decide) (by decide)
  exact decodeCommand_of_op hop rfl hres ((operandsOf_of_op_setb hop).trans (by rw [hidx, hr, hg, hb, hpct]))

theorem decodeCommand_get (idx : BitVec 16) : decodeCommand (5#4 ++ idx ++ 0#44) = .ok (.get idx) := by
  obtain ⟨hop, hidx⟩ := getLayout_fields 5 idx 0
  have hres := and_eq_zero_of_and_eq (bits := 0xFFFFFFFFFFF) (Laws.TableMatch.get idx).2 (by decide) (by decide)
  exact decodeCommand_of_op hop rfl hres ((operandsOf_of_op_get hop).trans (by rw [hidx]))

end Sys2Proof
end

section
/-! PROOFS. The pixel family: the arithmetic of the quintet and of the percentage read back (41_pixel_access.md R101, R107,
R110), what GET answers (R106, R108), and a pixel write read back (R109). -/

namespace Sys2Proof.Machine

variable {s t u : State} {idx : BitVec 16} {i : Nat} {r g b : Byte}

/-! ## The quintet -/

/-- Up to 100 percent the rounded-up share of a brightness is at most the brightness. -/
theorem roundedUp_le {pct : Nat} (h : pct ≤ 100) (gb : Nat) : (pct * gb + 99) / 100 ≤ gb := by
  have := Nat.mul_le_mul_right gb h
  omega

/-- Of a positive percentage and a positive brightness something is left. -/
theorem one_le_roundedUp {pct gb : Nat} (hp : 1 ≤ pct) (hg : 1 ≤ gb) : 1 ≤ (pct * gb + 99) / 100 := by
  have := Nat.mul_pos hp hg
  omega

/-- Up to 100 percent the mask of R101 drops nothing. -/
theorem roundedUp_mod_of_le {pct : Nat} (h : pct ≤ 100) (gb : BitVec 5) :
    (pct * gb.toNat + 99) / 100 % 32 = (pct * gb.toNat + 99) / 100 :=
  Nat.mod_eq_of_lt ((roundedUp_le h _).trans_lt gb.isLt)

/-- The full percentage, which SET writes, is the brightness itself (R103). -/
theorem roundedUp_pctDefault (gb : BitVec 5) : (Config.pctDefault.toNat * gb.toNat + 99) / 100 % 32 = gb.toNat := by
  rw [roundedUp_mod_of_le (by decide), show Config.pctDefault.toNat = 100 from rfl]
  omega

/-! ## The percentage read back -/

theorem toNat_brightnessOf (h : Byte) : (brightnessOf h).toNat = h.toNat % 32 := by
  simp [brightnessOf, toNat_field]

/-- The twelve bits of the response hold every percentage R107 can give. -/
theorem toNat_recon (q gb : BitVec 5) : (recon q gb).toNat = q.toNat * 100 / gb.toNat := by
  have := Nat.div_le_self (q.toNat * 100) gb.toNat
  have := q.isLt
  rw [recon, BitVec.toNat_ofNat, Nat.mod_eq_of_lt (by omega)]

/-- The marker bits of a header do not reach its brightness. -/
theorem brightnessOf_or_marker (x : Byte) : brightnessOf (0xE0#8 ||| x) = brightnessOf x := by revert x; decide

theorem toNat_brightnessOf_header {q : Nat} (hq : q < 32) : (brightnessOf (0xE0#8 ||| BitVec.ofNat 8 q)).toNat = q := by
  rw [brightnessOf_or_marker, toNat_brightnessOf, BitVec.toNat_ofNat]
  omega

/-- Rounding up on the way in loses nothing on the way back. -/
theorem le_recon_roundedUp (pct : Nat) {gb : Nat} (hg : 1 ≤ gb) : pct ≤ (pct * gb + 99) / 100 * 100 / gb := by
  rw [Nat.le_div_iff_mul_le hg]
  omega

/-- Rounding up adds less than 100, so the percentage read back exceeds the one written by less than `ceil(100/GB)`. -/
theorem recon_roundedUp_le (pct : Nat) {gb : Nat} (hg : 1 ≤ gb) :
    (pct * gb + 99) / 100 * 100 / gb ≤ pct + (100 + gb - 1) / gb - 1 :=
  calc (pct * gb + 99) / 100 * 100 / gb
    _ ≤ (99 + pct * gb) / gb := Nat.div_le_div_right (by omega)
    _ = 99 / gb + pct := Nat.add_mul_div_right 99 pct hg
    _ = pct + (99 / gb + 1) - 1 := Nat.add_comm _ _
    _ = pct + (100 + gb - 1) / gb - 1 := by rw [show 100 + gb - 1 = 99 + gb by omega, Nat.add_div_right 99 hg]

/-! ## GET -/

theorem exec_get_unconfigured (hm : s.mode = .unconfigured) (idx : BitVec 16) :
    exec (.get idx) s = .next (s.respond .notready) := by
  change execGet idx s = _
  unfold execGet
  exact whenReady_unconfigured hm _

theorem exec_get_outside (hm : s.mode = .ready) (hi : sint idx < 0 ∨ (s.numleds.toNat : Int) ≤ sint idx) :
    exec (.get idx) s = .next (s.respond .ok) := by
  rw [exec_get_ready hm, pixelIndex_eq_none.2 hi]

theorem exec_get_divzero (hm : s.mode = .ready) (hi : sint idx = i) (hlt : i < s.numleds.toNat) (hgb : s.gb = 0) :
    exec (.get idx) s = .next (s.respond .divzero) := by
  rw [exec_get_ready hm, pixelIndex_eq_some.2 ⟨hi, hlt⟩]
  exact if_pos hgb

/-- GET of a pixel whose four bytes are held answers its colours and its percentage (R108). -/
theorem exec_get_data (hm : s.mode = .ready) (hi : sint idx = i) (hlt : i < s.numleds.toNat) (hgb : s.gb ≠ 0) {h : Byte}
    (hh : Memory.read s.buf (4 * i) = some h) (hr : Memory.read s.buf (4 * i + s.order.r.toNat) = some r)
    (hg : Memory.read s.buf (4 * i + s.order.g.toNat) = some g)
    (hb : Memory.read s.buf (4 * i + s.order.b.toNat) = some b) :
    exec (.get idx) s = .next (s.give (responseWord .ok 1 r g b (recon (brightnessOf h) s.gb))) := by
  have hread {k : Nat} (hk : k < 4) {v : Byte} (hv : Memory.read s.buf (4 * i + k) = some v) :
      s.readByte (4 * i + k) = .ok v := State.readByte_eq_ok.2 ⟨by rw [State.bufLen_eq]; omega, hv⟩
  have hload : s.loadPixel i = .ok ⟨h, r, g, b⟩ := State.loadPixel_eq_ok.2
    ⟨hread (k := 0) (by decide) hh, hread s.order.r.isLt hr, hread s.order.g.isLt hg, hread s.order.b.isLt hb⟩
  rw [exec_get_ready hm, pixelIndex_eq_some.2 ⟨hi, hlt⟩]
  simp only [hload, if_neg hgb]

/-- The response GET gives has the form of R66 for its colours. -/
theorem getResponse_responseWord (r g b : Byte) (p : BitVec 12) : getResponse (responseWord .ok 1 r g b p) r g b := by
  obtain ⟨hst, hvalid, hz, hr, hg, hb, -, hlow⟩ := responseLayout_fields Status.ok.code 1 0 r g b p 0
  exact ⟨hst, hvalid, hz, hr, hg, hb, hlow⟩

/-- The percentage of a response (R66). -/
theorem responseWord_pct (st : Status) (valid : BitVec 1) (r g b : Byte) (p : BitVec 12) :
    field (responseWord st valid r g b p) 8 12 = p := by
  obtain ⟨-, -, -, -, -, -, hp, -⟩ := responseLayout_fields st.code valid 0 r g b p 0
  exact hp

/-! ## A pixel write read back -/

/-- GET of a pixel that stands as a pixel store left it, in a state with the ORDER and NUMLEDS of that store, answers the
stored colour and the percentage of the stored brightness. -/
theorem exec_get_of_pixelStored {q : Nat} (hst : pixelStored s t i r g b q) (hi : sint idx = i)
    (hlt : i < s.numleds.toNat) (hm : u.mode = .ready) (hord : u.order = t.order) (hn : u.numleds = t.numleds)
    (hgb : u.gb ≠ 0) (hkeep : ∀ k < 4, Memory.read u.buf (4 * i + k) = Memory.read t.buf (4 * i + k)) :
    exec (.get idx) u =
      .next (u.give (responseWord .ok 1 r g b (recon (brightnessOf (0xE0#8 ||| BitVec.ofNat 8 q)) u.gb))) := by
  obtain ⟨hframe, hh, hr, hg, hb, -⟩ := hst
  have hord : u.order = s.order := hord.trans (congrArg (·.order) hframe)
  have hn : u.numleds = s.numleds := hn.trans (congrArg (·.numleds) hframe)
  have held {k : Nat} (hk : k < 4) {v : Byte} (hv : Memory.read t.buf (4 * i + k) = some v) := (hkeep k hk).trans hv
  refine exec_get_data hm hi (by rwa [hn]) hgb (held (k := 0) (by decide) hh) ?_ ?_ ?_ <;> rw [hord]
  · exact held s.order.r.isLt hr
  · exact held s.order.g.isLt hg
  · exact held s.order.b.isLt hb

/-- A packed colour made of three bytes is taken apart into them (R70). -/
theorem unpack_append (r g b : Byte) : redOf (r ++ g ++ b) = r ∧ greenOf (r ++ g ++ b) = g ∧ blueOf (r ++ g ++ b) = b := by
  simp (disch := decide) only [redOf, greenOf, blueOf, field_append_of_le, field_append_of_add_le, field_self, Nat.reduceSub,
    and_self]

/-- SET, SETB and SETP of one colour are each the common pixel write with some percentage (R103, R104, R105). -/
theorem setPixel_of_write {pct : BitVec 8}
    (h : exec (.set idx r g b) s = .next t ∨ exec (.setb idx r g b pct) s = .next t ∨
      exec (.setp idx (r ++ g ++ b) pct) s = .next t) :
    ∃ p, whenReady s (setPixel idx r g b p) = .next t := by
  obtain h | h | h := h
  · exact ⟨Config.pctDefault, h⟩
  · exact ⟨pct, h⟩
  · obtain ⟨hr, hg, hb⟩ := unpack_append r g b
    rw [exec_setp, hr, hg, hb] at h
    exact ⟨pct, h⟩

/-- The state after the common pixel write of a pixel in range is the one with that pixel stored. -/
theorem pixelStored_of_setPixel (hm : s.mode = .ready) (ho : s.order.legal = true) (hi : sint idx = i)
    (hlt : i < s.numleds.toNat) {pct : BitVec 8} (h : whenReady s (setPixel idx r g b pct) = .next t) :
    pixelStored s t i r g b ((pct.toNat * s.gb.toNat + 99) / 100 % 32) := by
  obtain ⟨t', ht', hst⟩ := whenReady_setPixel_stores hm ho hi hlt r g b pct
  cases ht'.symm.trans h
  exact hst

/-! ## The obligations of the pixel family -/

/-- Settles O15: SETB is the common pixel write (R104). -/
theorem setbStoresPixel : Obligations.SetbStoresPixel := by
  intro s idx r g b pct
  rw [exec_setb]
  exact ⟨decodeCommand_setb idx r g b pct, fun hm => whenReady_unconfigured hm _, fun hm ho =>
    ⟨fun _ hi hlt => whenReady_setPixel_stores hm ho hi hlt r g b pct, fun hi => whenReady_setPixel_outside hm hi r g b pct⟩⟩

/-- Settles O16: SET is the common pixel write at 100 percent, whose quintet is GB itself. -/
theorem setStoresPixelAtFullPercentage : Obligations.SetStoresPixelAtFullPercentage := by
  intro s idx r g b
  rw [exec_set]
  refine ⟨decodeCommand_set idx r g b, fun hm => whenReady_unconfigured hm _, fun hm ho =>
    ⟨fun i hi hlt => ?_, fun hi => whenReady_setPixel_outside hm hi r g b _⟩⟩
  have := whenReady_setPixel_stores hm ho hi hlt r g b Config.pctDefault
  rwa [roundedUp_pctDefault] at this

/-- Settles O18: the answers of GET, case by case. -/
theorem getAnswersPixel : Obligations.GetAnswersPixel := by
  intro s idx
  refine ⟨decodeCommand_get idx, fun hm => exec_get_unconfigured hm idx, fun hm =>
    ⟨exec_get_outside hm, fun i hi hlt => ⟨exec_get_divzero hm hi hlt, fun hgb h r g b hh hr hg hb =>
      ⟨_, exec_get_data hm hi hlt hgb hh hr hg hb, getResponse_responseWord r g b _, ?_⟩⟩⟩⟩
  rw [responseWord_pct, toNat_recon, toNat_brightnessOf]

/-- Settles O19: each of the three writes stores the colour, and GET reads the stored pixel. -/
theorem colourRoundTrip : Obligations.ColourRoundTrip := by
  intro s t u idx r g b pct i hm ho hi hlt hwrite hmu hord hn hgb hkeep
  obtain ⟨p, hp⟩ := setPixel_of_write hwrite
  have hst := pixelStored_of_setPixel hm ho hi hlt hp
  exact ⟨_, exec_get_of_pixelStored hst hi hlt hmu hord hn hgb hkeep, getResponse_responseWord r g b _⟩

/-- Settles O20: the stored quintet is the rounded-up quotient, and its percentage is bounded on both sides. -/
theorem brightnessRoundTrip : Obligations.BrightnessRoundTrip := by
  intro s t u idx r g b pct i hm ho hi hlt hg1 hp hwrite hmu hord hn hgb hkeep
  have hst := pixelStored_of_setPixel hm ho hi hlt hwrite
  have hne : u.gb ≠ 0 := fun h0 => by rw [← hgb, h0] at hg1; exact absurd hg1 (by decide)
  refine ⟨_, exec_get_of_pixelStored hst hi hlt hmu hord hn hne hkeep, ?_⟩
  rw [responseWord_pct, toNat_recon, toNat_brightnessOf_header (Nat.mod_lt _ (by decide)), roundedUp_mod_of_le hp, hgb]
  refine ⟨le_recon_roundedUp _ hg1, recon_roundedUp_le _ hg1, fun h100 => ?_, fun h0 => ?_⟩
  · rw [h100, show (100 * s.gb.toNat + 99) / 100 = s.gb.toNat by omega, Nat.mul_div_cancel_left 100 hg1]
  · rw [h0]; simp

/-- Settles O21: up to 100 percent the quotient fits the five bits, so its bounds are the quintet's. -/
theorem quintetRoundsUpAndWraps : Obligations.QuintetRoundsUpAndWraps := by
  intro pct gb
  refine ⟨toNat_quintet pct gb, fun hp => roundedUp_le hp _, fun hg hp1 hp => ?_, fun hg => ?_⟩
  · rw [toNat_quintet, roundedUp_mod_of_le hp]
    exact one_le_roundedUp hp1 hg
  · rw [toNat_quintet, hg, Nat.mul_zero]

end Sys2Proof.Machine
end

section
/-! PROOFS. The rotate family: the word of ROT read back (30_encoding.md format I, R65), circular shifts one after the other,
and what ROT leaves in the buffer (42_rotate.md R120 to R124). -/

namespace Sys2Proof.Machine

variable {s t : State} {d : RotDir} {len k l : Nat} {m₁ m₂ m₃ : Memory}

/-! ## The word of ROT -/

theorem operandsOf_of_op_rot {w : CmdWord} (hop : opOf w = 6) : operandsOf w = some (.rot (field w 44 16)) := by
  unfold operandsOf; rw [hop]; rfl

/-- ROT has the layout of GET under its own operation code. -/
theorem decodeCommand_rot (pos : BitVec 16) : decodeCommand (6#4 ++ pos ++ 0#44) = .ok (.rot pos) := by
  obtain ⟨hop, hpos⟩ := getLayout_fields 6 pos 0
  have hres := and_eq_zero_of_and_eq (bits := 0xFFFFFFFFFFF) (Laws.TableMatch.rot pos).2 (by decide) (by decide)
  exact decodeCommand_of_op hop rfl hres ((operandsOf_of_op_rot hop).trans (by rw [hpos]))

/-! ## Circular shifts -/

/-- A shift counts modulo the length it turns. -/
theorem shifted_mod : shifted d len (k % len) m₁ m₂ ↔ shifted d len k m₁ m₂ := by
  unfold shifted
  simp only [Nat.add_mod_mod]

/-- A shift by nothing leaves every offset as it was. -/
theorem read_eq_of_shifted_zero (h : shifted d len 0 m₁ m₂) (a : Nat) : Memory.read m₂ a = Memory.read m₁ a := by
  obtain ⟨hin, hout⟩ := h
  by_cases ha : a < len
  · have := hin a ha
    rw [Nat.add_zero, Nat.mod_eq_of_lt ha] at this
    cases d <;> exact this
  · exact hout a (Nat.le_of_not_lt ha)

/-- Two shifts in one direction are one by the sum. -/
theorem shifted_trans (h₁ : shifted d len k m₁ m₂) (h₂ : shifted d len l m₂ m₃) : shifted d len (k + l) m₁ m₃ := by
  obtain ⟨hin₁, hout₁⟩ := h₁
  obtain ⟨hin₂, hout₂⟩ := h₂
  refine ⟨fun j hj => ?_, fun a ha => (hout₂ a ha).trans (hout₁ a ha)⟩
  have hlt (i : Nat) : i % len < len := Nat.mod_lt _ (Nat.zero_lt_of_lt hj)
  cases d with
  | towardLower =>
    calc Memory.read m₃ j
      _ = Memory.read m₂ ((j + l) % len) := hin₂ j hj
      _ = Memory.read m₁ (((j + l) % len + k) % len) := hin₁ _ (hlt _)
      _ = Memory.read m₁ ((j + (k + l)) % len) := by rw [Nat.mod_add_mod, Nat.add_assoc, Nat.add_comm l]
  | towardHigher =>
    calc Memory.read m₃ ((j + (k + l)) % len)
      _ = Memory.read m₃ (((j + k) % len + l) % len) := by rw [Nat.mod_add_mod, Nat.add_assoc]
      _ = Memory.read m₂ ((j + k) % len) := hin₂ _ (hlt _)
      _ = Memory.read m₁ j := hin₁ j hj

/-- Shifting toward the end and looking k further finds the byte that was there. -/
theorem shiftBy_towardHigher_get {bs : List Byte} (hk : k ≤ bs.length) {j : Nat} (hj : j < bs.length) :
    (shiftBy .towardHigher k bs)[(j + k) % bs.length]? = bs[j]? := by
  have hpos := Nat.mod_lt (j + k) (Nat.zero_lt_of_lt hj)
  rw [shiftBy, shiftLower_get (Nat.sub_le _ _) hpos, Nat.mod_add_mod, show j + k + (bs.length - k) = j + bs.length by omega,
    Nat.add_mod_right, Nat.mod_eq_of_lt hj]

/-- Writing the first bytes of a buffer back shifted shifts the buffer. -/
theorem shifted_write_shiftBy {bs : List Byte} (hlen : bs.length = len) (hk : k ≤ len)
    (hbs : ∀ j < len, Memory.read m₁ j = bs[j]?) : shifted d len k m₁ (Memory.write m₁ 0 (shiftBy d k bs)) := by
  subst hlen
  have inside {j : Nat} (hj : j < bs.length) : Memory.read (Memory.write m₁ 0 (shiftBy d k bs)) j = (shiftBy d k bs)[j]? := by
    rw [Memory.read_write, if_pos (by rw [shiftBy_length]; omega), Nat.sub_zero]
  refine ⟨fun j hj => ?_, fun a ha => Memory.read_write_outside (.inr (by rw [shiftBy_length]; omega))⟩
  have hlt (i : Nat) : i % bs.length < bs.length := Nat.mod_lt _ (Nat.zero_lt_of_lt hj)
  cases d with
  | towardLower => exact (inside hj).trans ((shiftLower_get hk hj).trans (hbs _ (hlt _)).symm)
  | towardHigher => exact (inside (hlt _)).trans ((shiftBy_towardHigher_get hk hj).trans (hbs j hj).symm)

/-! ## The rotate amount -/

/-- The amounts of two counts add up to the amount of the sum, modulo the number of LEDs. -/
theorem rotateAmount_add_mod (a b : BitVec 16) {n : BitVec 11} (hn : 1 ≤ n.toNat) :
    (rotateAmount a n + rotateAmount b n) % n.toNat = ((sint a + sint b) % (n.toNat : Int)).toNat := by
  have hne : (n.toNat : Int) ≠ 0 := by omega
  have cast (p : BitVec 16) : (rotateAmount p n : Int) = sint p % n.toNat := Int.toNat_of_nonneg (Int.emod_nonneg _ hne)
  rw [← Int.toNat_natCast ((_ + _) % _), Int.natCast_emod, Int.natCast_add, cast, cast, ← Int.add_emod]

/-! ## ROT -/

theorem exec_rot_unconfigured (hm : s.mode = .unconfigured) (pos : BitVec 16) :
    exec (.rot pos) s = .next (s.respond .notready) := by
  change execRot pos s = _
  unfold execRot
  exact whenReady_unconfigured hm _

/-- ROT of a whole buffer shifts it and answers `OK`; the buffer stays whole and stays in canonical form. -/
theorem exec_rot_shifts (hm : s.mode = .ready) (hn : 1 ≤ s.numleds.toNat) (hheld : s.held) (pos : BitVec 16) :
    ∃ t, exec (.rot pos) s = .next t ∧ t = { s with buf := t.buf, responses := s.responses ++ [statusWord .ok] } ∧
      shifted s.params.rotDir (4 * s.numleds.toNat) (4 * rotateAmount pos s.numleds) s.buf t.buf ∧
      t.held ∧ (Memory.wf s.buf → Memory.wf t.buf) := by
  obtain ⟨bs, hbs⟩ := State.memRead_exists (s := s) (a := 0) (n := s.bufLen) (by omega)
    fun j hj => by rw [Nat.zero_add]; exact hheld j hj
  obtain ⟨-, hlen, hread⟩ := State.memRead_eq_ok.1 hbs
  simp only [Nat.zero_add] at hread
  rw [State.bufLen_eq] at hlen hread
  have hk : 4 * rotateAmount pos s.numleds ≤ 4 * s.numleds.toNat := by
    have := rotateAmount_lt pos hn
    omega
  refine ⟨_, by rw [exec_rot_ready hm, hbs], rfl, shifted_write_shiftBy hlen hk hread, fun a ha => ?_,
    fun hwf => Memory.wf_write hwf 0 _⟩
  have ha : a < (shiftBy s.params.rotDir (4 * rotateAmount pos s.numleds) bs).length := by rwa [shiftBy_length, hlen]
  rw [State.respond_buf, Memory.read_write, if_pos (by omega), Nat.sub_zero, List.getElem?_eq_getElem ha]
  rfl

/-- After a ROT of a whole buffer a second one turns it, in all, by the amount of the sum of their counts. -/
theorem exec_rot_rot (hm : s.mode = .ready) (hn : 1 ≤ s.numleds.toNat) (hheld : s.held) {a b : BitVec 16}
    (h : exec (.rot a) s = .next t) :
    ∃ u, exec (.rot b) t = .next u ∧
      shifted s.params.rotDir (4 * s.numleds.toNat) (4 * ((sint a + sint b) % (s.numleds.toNat : Int)).toNat) s.buf u.buf ∧
      (Memory.wf s.buf → Memory.wf u.buf) := by
  obtain ⟨t', ht', hframe, hfirst, hheld', hwf'⟩ := exec_rot_shifts hm hn hheld a
  cases h.symm.trans ht'
  have hnum : t.numleds = s.numleds := congrArg (·.numleds) hframe
  have hpar : t.params = s.params := congrArg (·.params) hframe
  obtain ⟨u, hu, -, hsecond, -, hwf⟩ := exec_rot_shifts ((congrArg (·.mode) hframe).trans hm) (hnum ▸ hn) hheld' b
  rw [hnum, hpar] at hsecond
  refine ⟨u, hu, ?_, hwf ∘ hwf'⟩
  rw [← rotateAmount_add_mod a b hn, ← Nat.mul_mod_mul_left, shifted_mod, Nat.mul_add]
  exact shifted_trans hfirst hsecond

/-! ## The obligations of the rotate family -/

/-- Settles O24: ROT of a whole buffer writes it back shifted. -/
theorem rotShiftsBuffer : Obligations.RotShiftsBuffer := by
  intro s pos
  refine ⟨decodeCommand_rot pos, fun hm => exec_rot_unconfigured hm pos, fun hm hn hheld => ?_⟩
  obtain ⟨t, ht, hframe, hshift, -, -⟩ := exec_rot_shifts hm hn hheld pos
  exact ⟨t, ht, hframe, hshift⟩

/-- Settles O25: the two counts add up to a multiple of NUMLEDS, and canonical buffers that read alike are equal. -/
theorem rotInverseRestores : Obligations.RotInverseRestores := by
  rintro s t k l hm ⟨hn, -, hrange, -⟩ hl h
  have hheld : s.held := fun a ha => by rw [Memory.read_isSome_of_range hrange]; exact decide_eq_true ha
  have hsum : (sint k + sint l) % (s.numleds.toNat : Int) = 0 := by
    rw [hl, add_sub_left_comm, Int.add_emod_left]
    exact Int.emod_eq_zero_of_dvd Int.dvd_self_sub_emod
  obtain ⟨u, hu, hshift, hwf⟩ := exec_rot_rot (b := l) hm hn hheld h
  rw [hsum] at hshift
  have hs := Memory.wf_of_range hrange
  exact ⟨u, hu, Memory.ext_of_wf (hwf hs) hs (read_eq_of_shifted_zero hshift)⟩

/-- Settles O26: two circular shifts compose. -/
theorem rotsCompose : Obligations.RotsCompose := by
  intro s t a b hm hn hheld h
  obtain ⟨u, hu, hshift, -⟩ := exec_rot_rot (b := b) hm hn hheld h
  exact ⟨u, hu, hshift⟩

end Sys2Proof.Machine
end

section
/-! PROOFS. The frame family: the frame as the transaction around the buffer's bytes and its length (43_frame_emit.md R134,
R135), a flush that the transport answers (R136), and what SHOW and CLEAR do (R138 to R140). -/

namespace Sys2Proof.Machine

variable {s : State} {px : List Byte} {w : Waiting} {r : TResult} {rest : List TResult}

/-! ## The frame -/

/-- MemRead of the whole buffer answers the bytes held at its offsets. -/
theorem State.memRead_whole_eq_ok : s.memRead 0 s.bufLen = .ok px ↔ holdsBytes s.buf (4 * s.numleds.toNat) px := by
  simp only [State.memRead_eq_ok, Nat.zero_add, le_refl, true_and, State.bufLen_eq, holdsBytes]

/-- The frame around pixel bytes is the start frame, those bytes, the reset frame and the padding (R134). -/
theorem State.frameAround_eq (s : State) (px : List Byte) :
    startBytes ++ px ++ s.resetBytes ++ s.padBytes = frameAround s.numleds.toNat s.hasreset px := by
  rw [startBytes_eq, State.resetBytes_eq, State.padBytes_eq]
  rfl

/-- The frame is built exactly when the whole buffer is held, and it is the transaction around the buffer's bytes. -/
theorem State.buildFrame_eq_frameAround {f : List Byte} :
    s.buildFrame = .ok f ↔
      ∃ px, holdsBytes s.buf (4 * s.numleds.toNat) px ∧ f = frameAround s.numleds.toNat s.hasreset px := by
  simp only [State.buildFrame_eq_ok, State.memRead_whole_eq_ok, State.frameAround_eq]

/-- A whole buffer has a list of its bytes. -/
theorem State.held_exists_holdsBytes (h : s.held) : ∃ px, holdsBytes s.buf (4 * s.numleds.toNat) px := by
  obtain ⟨px, hpx⟩ := State.memRead_exists (s := s) (a := 0) (n := s.bufLen) (by omega)
    fun j hj => by rw [Nat.zero_add]; exact h j hj
  exact ⟨px, State.memRead_whole_eq_ok.1 hpx⟩

theorem frameAround_length (n : Nat) (h : BitVec 1) (px : List Byte) :
    (frameAround n h px).length = 4 + px.length + 4 * h.toNat + (n + 15) / 16 := by
  have hreset : (if h = 1 then List.replicate 4 (0 : Byte) else []).length = 4 * h.toNat := by
    revert h
    decide
  simp only [frameAround, List.length_append, List.length_replicate, hreset]

/-! ## A flush that is answered -/

/-- A flush of a buffer that holds px, with an answer there, completes the operation with the frame around px. -/
theorem State.flush_answered (hpx : holdsBytes s.buf (4 * s.numleds.toNat) px) (ha : s.answers = r :: rest) (w : Waiting) :
    s.flush w = .next (State.complete
      { s with frame := frameAround s.numleds.toNat s.hasreset px, answers := rest, waiting := none } w r) :=
  State.flush_eq_next.2 ⟨_, State.buildFrame_eq_frameAround.2 ⟨px, hpx, rfl⟩,
    (State.callTransport_cons (s := { s with frame := frameAround s.numleds.toNat s.hasreset px }) w ha).symm⟩

theorem TResult.status_eq (r : TResult) : r.status = if r = .ok then .ok else .transport := by
  cases r <;> rfl

/-- SHOW and CLEAR do nothing more once the write is answered: its entry in TH, F gone, OK or TRANSPORT (R138, R140). -/
theorem State.complete_write (hw : w = .showFrame ∨ w = .clear) (s : State) (r : TResult) :
    s.complete w r =
      { s with
        frame := []
        th := s.th ++ [.write s.frame r]
        responses := s.responses ++ [statusWord (if r = .ok then .ok else .transport)] } := by
  rw [← TResult.status_eq]
  obtain rfl | rfl := hw <;> rfl

/-- A flush of SHOW or CLEAR, with an answer there: one write of the frame around the buffer's bytes, one status, and
neither a register nor a byte changed. -/
theorem State.flush_write (hw : w = .showFrame ∨ w = .clear) (hpx : holdsBytes s.buf (4 * s.numleds.toNat) px)
    (ha : s.answers = r :: rest) :
    s.flush w = .next { s with
      answers := rest
      waiting := none
      frame := []
      th := s.th ++ [.write (frameAround s.numleds.toNat s.hasreset px) r]
      responses := s.responses ++ [statusWord (if r = .ok then .ok else .transport)] } := by
  rw [State.flush_answered hpx ha, State.complete_write hw]

/-! ## The blanked buffer -/

/-- The quintet of the default percentage is GB itself (R139). -/
theorem quintet_pctDefault (gb : BitVec 5) : quintet Config.pctDefault gb = gb :=
  BitVec.eq_of_toNat_eq (by rw [toNat_quintet, roundedUp_pctDefault])

/-- Copies of the black pixel under the header of gb are black pixels of that brightness. -/
theorem blackPixels_repeatPixel (n : Nat) (gb : BitVec 5) : blackPixels n gb (repeatPixel n [headerOf gb, 0, 0, 0]) := by
  refine ⟨by rw [repeatPixel_length, Nat.mul_comm]; rfl, fun i hi => ?_⟩
  have hget {k : Nat} (hk : k < 4) : (repeatPixel n [headerOf gb, 0, 0, 0])[4 * i + k]? = [headerOf gb, 0, 0, 0][k]? :=
    repeatPixel_get hi hk
  rw [← headerOf_eq_or]
  exact ⟨hget (k := 0) (by decide), hget (k := 1) (by decide), hget (k := 2) (by decide), hget (k := 3) (by decide)⟩

/-- Under a legal order the blanked buffer holds black pixels of the brightness GB. -/
theorem State.blanked_holdsBlack (ho : s.order.legal = true) :
    ∃ px, blackPixels s.numleds.toNat s.gb px ∧ holdsBytes s.blanked.buf (4 * s.numleds.toNat) px := by
  have hread := State.memRead_whole_eq_ok.1 s.blanked_memRead
  rw [quintet_pctDefault, pixelBytes_black ho] at hread
  exact ⟨_, blackPixels_repeatPixel _ _, hread⟩

/-- Blanking touches no offset above the buffer. -/
theorem State.blanked_read_above {a : Nat} (ha : 4 * s.numleds.toNat ≤ a) :
    Memory.read s.blanked.buf a = Memory.read s.buf a :=
  Memory.read_write_outside (.inr (by rw [repeatPixel_length, pixelBytes_length]; omega))

/-! ## SHOW and CLEAR in UNCONFIGURED -/

theorem exec_showFrame_unconfigured (hm : s.mode = .unconfigured) : exec .showFrame s = .next (s.respond .notready) := by
  change execShowFrame s = _
  unfold execShowFrame
  exact whenReady_unconfigured hm _

theorem exec_clear_unconfigured (hm : s.mode = .unconfigured) : exec .clear s = .next (s.respond .notready) := by
  change execClear s = _
  unfold execClear
  exact whenReady_unconfigured hm _

/-! ## The obligations of the frame family -/

/-- Settles O27: SHOW flushes the buffer as it is. -/
theorem showSendsFrame : Obligations.ShowSendsFrame := by
  refine ⟨rfl, fun s => ⟨exec_showFrame_unconfigured, fun r rest hm hheld ha => ?_⟩⟩
  obtain ⟨px, hpx⟩ := State.held_exists_holdsBytes hheld
  exact ⟨_, px, (exec_showFrame_ready hm).trans (State.flush_write (.inl rfl) hpx ha), hpx, rfl⟩

/-- Settles O29: CLEAR flushes the blanked buffer, which holds black pixels. -/
theorem clearBlanksAndSends : Obligations.ClearBlanksAndSends := by
  refine ⟨rfl, fun s => ⟨exec_clear_unconfigured, fun r rest hm ho ha => ?_⟩⟩
  obtain ⟨px, hblack, hpx⟩ := State.blanked_holdsBlack ho
  have hrun := State.flush_write (s := s.blanked) (.inr rfl) hpx ha
  exact ⟨_, px, (exec_clear_ready hm).trans hrun, hblack, hpx, fun _ => State.blanked_read_above, rfl⟩

/-- Settles O28: the frame is the transaction around `4 * NUMLEDS` bytes. -/
theorem frameLengthFormula : Obligations.FrameLengthFormula := by
  intro s f hf
  obtain ⟨px, ⟨hlen, -⟩, rfl⟩ := State.buildFrame_eq_frameAround.1 hf
  rw [frameAround_length, hlen]

end Sys2Proof.Machine
end

section
/-! PROOFS. The control family: the word of SETGB read back (30_encoding.md R68), CONFIG's checks and what an acquired
transport constructs (44_config_control.md R150 to R154), SETGB and TEARDOWN (R156 to R159), and the refusals of the mode
and of an illegal word (R161, R178). -/

namespace Sys2Proof.Machine

variable {s : State} {n : BitVec 16} {tg g : BitVec 8} {h k : BitVec 1} {e : Status} {r : TResult} {rest : List TResult}

/-! ## The word of SETGB -/

theorem operandsOf_of_op_setgb {w : CmdWord} (hop : opOf w = 7) : operandsOf w = some (.setgb (field w 12 8)) := by
  unfold operandsOf; rw [hop]; rfl

/-- The fields of a word laid out as SETGB's, wherever its parts come from. -/
theorem setgbLayout_fields (op : BitVec 4) (high : BitVec 40) (val : BitVec 8) (low : BitVec 12) :
    let w := op ++ high ++ val ++ low
    opOf w = op ∧ field w 12 8 = val := by
  simp (disch := decide) only [opOf, field_append_of_le, field_append_of_add_le, field_self, Nat.reduceSub, and_self]

theorem decodeCommand_setgb (val : BitVec 8) : decodeCommand (7#4 ++ 0#40 ++ val ++ 0#12) = .ok (.setgb val) := by
  obtain ⟨hop, hval⟩ := setgbLayout_fields 7 0 val 0
  have hres := and_eq_zero_of_and_eq (bits := 0x0FFFFFFFFFF00FFF) (Laws.TableMatch.setgb val).2 (by decide) (by decide)
  exact decodeCommand_of_op hop rfl hres ((operandsOf_of_op_setgb hop).trans (by rw [hval]))

/-! ## CONFIG's checks -/

theorem configError_ledcount (hn : n.toNat < 1 ∨ 1024 < n.toNat) : configError n g k = some .cfgLedcount :=
  if_pos hn

/-- The transport flag is looked at only after the LED count. -/
theorem configError_buspin (hn1 : 1 ≤ n.toNat) (hn2 : n.toNat ≤ 1024) : configError n g 0 = some .cfgBuspin :=
  if_neg (show ¬(n.toNat < 1 ∨ 1024 < n.toNat) by omega)

/-- The brightness is looked at only after the LED count and the transport flag. -/
theorem configError_brightness (hn1 : 1 ≤ n.toNat) (hn2 : n.toNat ≤ 1024) (hg : 31 < g.toNat) :
    configError n g 1 = some .cfgBrightness :=
  (if_neg (show ¬(n.toNat < 1 ∨ 1024 < n.toNat) by omega)).trans (if_pos hg)

theorem exec_config_already (hm : s.mode = .ready) : exec (.config n tg g h k) s = .next (s.respond .already) := by
  rw [exec_config, hm]

theorem exec_config_rejected (hm : s.mode = .unconfigured) (he : configError n g k = some e) :
    exec (.config n tg g h k) s = .next (s.respond e) := by
  rw [exec_config, hm, he]

/-- CONFIG with legal operands calls the transport, whatever the tag. -/
theorem exec_config_legal (hm : s.mode = .unconfigured) (hn1 : 1 ≤ n.toNat) (hn2 : n.toNat ≤ 1024) (hg : g.toNat ≤ 31) :
    exec (.config n tg g h 1) s = .next (s.callTransport (.acquire n tg g h)) := by
  rw [exec_config, hm, configError_eq_none.2 ⟨hn1, hn2, rfl, hg⟩]

/-- With an answer of T_acquire there, it completes with that answer. -/
theorem exec_config_answered (hm : s.mode = .unconfigured) (hn1 : 1 ≤ n.toNat) (hn2 : n.toNat ≤ 1024) (hg : g.toNat ≤ 31)
    (ha : s.answers = r :: rest) :
    exec (.config n tg g h 1) s =
      .next (State.complete { s with answers := rest, waiting := none } (.acquire n tg g h) r) := by
  rw [exec_config_legal hm hn1 hn2 hg, State.callTransport_cons _ ha]

/-! ## The block constructed -/

/-- NUMLEDS holds every legal LED count. -/
theorem State.toNat_construct_numleds (hn : n.toNat ≤ 1024) : (s.construct n tg g h).numleds.toNat = n.toNat := by
  rw [State.construct_numleds, toNat_field, Nat.pow_zero, Nat.div_one, Nat.mod_eq_of_lt (by omega)]

/-- GB holds every legal brightness. -/
theorem State.toNat_construct_gb (hg : g.toNat ≤ 31) : (s.construct n tg g h).gb.toNat = g.toNat := by
  rw [State.construct_gb, toNat_field, Nat.pow_zero, Nat.div_one, Nat.mod_eq_of_lt (by omega)]

/-- Each pixel of the constructed buffer is `E0 00 00 00` (R153). -/
theorem State.read_construct_pixel {i j : Nat} (hi : i < n.toNat) (hj : j < 4) :
    Memory.read (s.construct n tg g h).buf (4 * i + j) = [Config.initHdr, 0, 0, 0][j]? := by
  rw [State.construct_buf, Memory.read_ofBytes, if_pos (Nat.zero_le _), Nat.sub_zero]
  exact repeatPixel_get hi hj

/-- The constructed buffer holds nothing above its pixels. -/
theorem State.read_construct_above {a : Nat} (ha : 4 * n.toNat ≤ a) :
    Memory.read (s.construct n tg g h).buf a = none := by
  rw [State.construct_buf, Memory.read_ofBytes, if_pos (Nat.zero_le _), Nat.sub_zero, List.getElem?_eq_none]
  rw [repeatPixel_length, Nat.mul_comm]
  exact ha

/-! ## TEARDOWN answered -/

/-- TEARDOWN's completion: the write and then the release in TH, UNCONFIGURED, OK or TRANSPORT (R159). -/
theorem State.complete_teardown (s : State) (r : TResult) :
    (s.complete .teardown r).mode = .unconfigured ∧
      (s.complete .teardown r).th = s.th ++ [.write s.frame r, .release] ∧
      (s.complete .teardown r).responses = s.responses ++ [statusWord (if r = .ok then .ok else .transport)] ∧
      (s.complete .teardown r).frame = [] := by
  refine ⟨rfl, List.append_assoc s.th [_] [_], ?_, rfl⟩
  rw [State.complete_responses, TResult.status_eq]

/-! ## Refusals -/

theorem exec_setgb_unconfigured (hm : s.mode = .unconfigured) (val : BitVec 8) :
    exec (.setgb val) s = .next (s.respond .notready) := by
  change execSetgb val s = _
  unfold execSetgb
  exact whenReady_unconfigured hm _

/-- An illegal command word is taken and answered ILLEGAL, in either mode. -/
theorem step_illegal {w : CmdWord} {e : DecodeError} {evs : List Event} (hw : s.waiting = none)
    (hi : s.inbox = .word (.command w) :: evs) (hd : decodeCommand w = .error e) :
    step s = .next ((State.record { s with inbox := evs } (.command w)).respond .illegal) := by
  have haccept : accept (.command w) { s with inbox := evs } =
      .settled ((State.record { s with inbox := evs } (.command w)).respond .illegal) := by
    unfold accept
    rw [show decode s.frame.isEmpty (.command w) = .error e from hd]
    cases e with
    | noSuchFrame => exact absurd rfl (decodeCommand_error hd)
    | reservedOp => rfl
    | reservedBits => rfl
  unfold step
  rw [fetch_word hi hw, haccept]

/-! ## The obligations of the control family -/

/-- Settles O30: TEARDOWN in READY flushes the blanked buffer, which holds black pixels, and completes. -/
theorem teardownBlanksFlushesReleases : Obligations.TeardownBlanksFlushesReleases := by
  refine ⟨rfl, fun s => ⟨exec_teardown_unconfigured, fun r rest hm ho ha => ?_⟩⟩
  obtain ⟨px, hblack, hpx⟩ := State.blanked_holdsBlack ho
  have hrun := (exec_teardown_ready hm).trans (State.flush_answered (s := s.blanked) hpx ha .teardown)
  obtain ⟨hmode, hth, hresp, hframe⟩ := State.complete_teardown
    { s.blanked with frame := frameAround s.numleds.toNat s.hasreset px, answers := rest, waiting := none } r
  exact ⟨_, px, hrun, hblack, hmode, hth, hresp, State.complete_answers .., State.complete_waiting .., hframe,
    State.complete_inbox .., State.complete_params ..⟩

/-- Settles O36: the acquired transport constructs the block. -/
theorem configConstructs : Obligations.ConfigConstructs := by
  intro s n tg g h rest hm hn1 hn2 hg ha
  refine ⟨_, exec_config_answered hm hn1 hn2 hg ha, State.toNat_construct_numleds hn2, State.toNat_construct_gb hg, rfl,
    fun i hi => ?_, fun a => State.read_construct_above⟩
  exact ⟨State.read_construct_pixel (j := 0) hi (by decide), State.read_construct_pixel (j := 1) hi (by decide),
    State.read_construct_pixel (j := 2) hi (by decide), State.read_construct_pixel (j := 3) hi (by decide)⟩

/-- Settles O37: each check's error, and the transport call when there is none. -/
theorem configValidatesBeforeTransport : Obligations.ConfigValidatesBeforeTransport := by
  intro s n tg g h k hm
  refine ⟨fun hn => exec_config_rejected hm (configError_ledcount hn), ?_, ?_, ?_⟩
  · rintro hn1 hn2 rfl
    exact exec_config_rejected hm (configError_buspin hn1 hn2)
  · rintro hn1 hn2 rfl hg
    exact exec_config_rejected hm (configError_brightness hn1 hn2 hg)
  · rintro hn1 hn2 rfl hg
    exact exec_config_legal hm hn1 hn2 hg

/-- Settles O38: CONFIG completes with T_acquire's answer, which it logs first. -/
theorem configReportsFailedAcquire : Obligations.ConfigReportsFailedAcquire := by
  intro s n tg g h r rest hm hn1 hn2 hg ha
  refine ⟨_, exec_config_answered hm hn1 hn2 hg ha, ?_, ?_⟩
  · cases r <;> rfl
  · rintro rfl
    rfl

/-- Settles O40: the word by its fields, the effect by the mode and the bound on the value. -/
theorem setgbSetsBrightnessAlone : Obligations.SetgbSetsBrightnessAlone := by
  intro s val
  refine ⟨decodeCommand_setgb val, fun hm => exec_setgb_unconfigured hm val, fun hm => ⟨fun hle => ?_, fun hgt => ?_⟩⟩
  · have hgb : field val 0 5 = BitVec.ofNat 5 val.toNat := BitVec.eq_of_toNat_eq (by simp [toNat_field])
    rw [exec_setgb_ready hm, if_neg (by omega), hgb]
    rfl
  · rw [exec_setgb_ready hm, if_pos hgt]

/-- Settles O41: each command by its own refusal, an illegal word by the step that takes it. -/
theorem modeGatesCommands : Obligations.ModeGatesCommands := by
  refine fun s => ⟨fun hm => ⟨?_, exec_teardown_unconfigured hm⟩, fun hm _ _ _ _ _ => exec_config_already hm,
    fun w e rest hw hi hd => ⟨_, step_illegal hw hi hd, rfl⟩⟩
  rintro i (⟨idx, r, g, b, rfl⟩ | ⟨idx, r, g, b, pct, rfl⟩ | ⟨idx, c, pct, rfl⟩ | ⟨idx, rfl⟩ | ⟨pos, rfl⟩ | ⟨val, rfl⟩ |
    rfl | rfl)
  · exact (exec_set idx r g b s).trans (whenReady_unconfigured hm _)
  · exact (exec_setb idx r g b pct s).trans (whenReady_unconfigured hm _)
  · exact (exec_setp idx c pct s).trans (whenReady_unconfigured hm _)
  · exact exec_get_unconfigured hm idx
  · exact exec_rot_unconfigured hm pos
  · exact exec_setgb_unconfigured hm val
  · exact exec_showFrame_unconfigured hm
  · exact exec_clear_unconfigured hm

end Sys2Proof.Machine
end

section
/-! PROOFS. The exceptions family: which response words are ILLEGAL, and that no instruction gives one
(30_encoding.md R66; 60_exceptions.md R171, R177). -/

namespace Sys2Proof.Machine

variable {s t : State}

/-! ## The ILLEGAL response -/

/-- ILLEGAL shares its code with no other status (R171). -/
theorem Status.eq_illegal_of_code {st : Status} (h : st.code = Status.illegal.code) : st = .illegal := by
  cases st
  case illegal => rfl
  all_goals exact absurd h (by decide)

/-- The status of a response (R66). -/
theorem responseWord_status (st : Status) (valid : BitVec 1) (r g b : Byte) (p : BitVec 12) :
    field (responseWord st valid r g b p) 60 4 = st.code := by
  obtain ⟨hst, -⟩ := responseLayout_fields st.code valid 0 r g b p 0
  exact hst

/-- A response with another status is not the ILLEGAL one, whatever its data fields hold. -/
theorem append_responseWord_ne_illegal {st : Status} (hst : st ≠ .illegal) (given : List CmdWord) (valid : BitVec 1)
    (r g b : Byte) (p : BitVec 12) : given ++ [responseWord st valid r g b p] ≠ given ++ [statusWord .illegal] := by
  intro h
  have hword : responseWord st valid r g b p = statusWord .illegal := List.singleton_inj.1 (List.append_cancel_left h)
  have hcode : st.code = Status.illegal.code := by
    rw [← responseWord_status st valid r g b p, hword]
    exact responseWord_status .illegal 0 0 0 0 0
  exact hst (Status.eq_illegal_of_code hcode)

theorem TResult.status_ne_illegal (r : TResult) : r.status ≠ .illegal := by cases r <;> decide

/-- An operation that calls the transport answers with the transport's status, or waits and gives no response. -/
theorem State.callTransport_responses_ne_illegal (s : State) (w : Waiting) :
    (s.callTransport w).responses ≠ s.responses ++ [statusWord .illegal] := by
  rcases s.callTransport_cases w with ⟨-, h⟩ | ⟨r, rest, -, h⟩
  · simp [h]
  · rw [h, State.complete_responses]
    exact append_responseWord_ne_illegal r.status_ne_illegal s.responses 0 0 0 0 0

/-- No instruction answers ILLEGAL: only the fetch of a word that does not decode does. -/
theorem exec_responses_ne_illegal {i : Instr} (h : exec i s = .next t) :
    t.responses ≠ s.responses ++ [statusWord .illegal] := by
  have hok : Status.ok ≠ .illegal := by decide
  cases exec_effect h with
  | answers st hst ht => rw [ht]; exact append_responseWord_ne_illegal hst.1 s.responses 0 0 0 0 0
  | reads _ _ _ r g b p ht => rw [ht]; exact append_responseWord_ne_illegal hok s.responses 1 r g b p
  | brightens _ _ _ _ ht => rw [ht]; exact append_responseWord_ne_illegal hok s.responses 0 0 0 0 0
  | stores _ _ _ _ _ _ _ _ ht => rw [ht]; exact append_responseWord_ne_illegal hok s.responses 0 0 0 0 0
  | rotates _ _ _ _ _ ht => rw [ht]; exact append_responseWord_ne_illegal hok s.responses 0 0 0 0 0
  | acquires n tg g hr _ _ _ _ ht => rw [ht]; exact s.callTransport_responses_ne_illegal (.acquire n tg g hr)
  | shows _ _ f _ ht =>
    rw [ht]; exact State.callTransport_responses_ne_illegal { s with frame := f } .showFrame
  | blanks _ w _ f _ ht =>
    rw [ht]; exact State.callTransport_responses_ne_illegal { s.blanked with frame := f } w
  | puts _ _ ht => simp [ht]

/-! ## The obligation of the exceptions family -/

/-- Settles O4: an illegal word by the step that takes it, which never looks at the mode; a legal one by the effects an
instruction can have. -/
theorem legalityIndependentOfState : Obligations.LegalityIndependentOfState :=
  ⟨fun _ _ _ _ hw hi hd => ⟨_, step_illegal hw hi hd, rfl⟩, fun _ _ _ _ _ h => exec_responses_ne_illegal h⟩

end Sys2Proof.Machine
end

section
/-! PROOFS. The reset family: the fields R190 fixes in the state right after reset, under any parameters
(70_reset_and_hazards.md R190). -/

namespace Sys2Proof.Machine

variable (p : Params)

/-! ## resetUnder -/

@[simp] theorem State.resetUnder_mode : (State.resetUnder p).mode = .unconfigured := rfl
@[simp] theorem State.resetUnder_waiting : (State.resetUnder p).waiting = none := rfl
@[simp] theorem State.resetUnder_th : (State.resetUnder p).th = [] := rfl

/-! ## The obligation of the reset family -/

/-- Settles O12: the parameters reach none of the three fields, and the reset state is the one under the default parameters. -/
theorem resetStateUnconfigured : Obligations.ResetStateUnconfigured := by
  have hfields (p : Params) : (State.resetUnder p).mode = .unconfigured ∧ (State.resetUnder p).waiting = none ∧
      (State.resetUnder p).th = [] :=
    ⟨State.resetUnder_mode p, State.resetUnder_waiting p, State.resetUnder_th p⟩
  exact ⟨hfields Config.defaultParams, hfields⟩

end Sys2Proof.Machine
end

section
/-! PROOFS. The encoding of every instruction: fields put together again, reserved bits as fields, each word read back and
written again (30_encoding.md R60 to R79), and SETP's word beside SETB's (R70, R105). -/

namespace Sys2Proof

variable {w : CmdWord} {op : BitVec 4} {i : Instr}

/-! ## Fields -/

/-- A field within a field is a field of the word. -/
theorem field_field {n : Nat} (v : BitVec n) {lo width a b : Nat} (h : a + b ≤ width) :
    field (field v lo width) a b = field v (lo + a) b := by
  ext i hi
  simp only [← BitVec.getLsbD_eq_getElem, getLsbD_field, Nat.add_assoc]
  rw [decide_eq_true (show a + i < width by omega), Bool.true_and]

/-- Two fields side by side are one field. -/
theorem field_append_field {n : Nat} (v : BitVec n) {hi lo a b : Nat} (h : hi = lo + b) :
    field v hi a ++ field v lo b = field v lo (a + b) :=
  BitVec.extractLsb'_append_extractLsb'_eq_extractLsb' h

theorem field_eq_zero_iff {n : Nat} {v : BitVec n} {lo width : Nat} :
    field v lo width = 0 ↔ ∀ i < width, v.getLsbD (lo + i) = false := by
  simp [← BitVec.getLsbD_eq_getElem, BitVec.eq_of_getElem_eq_iff]

/-! ## Reserved bits -/

/-- A word masked with the bits of one field is zero exactly when that field is. -/
theorem and_fieldMask_eq_zero (w : CmdWord) {lo width : Nat} (h : lo + width ≤ 64) :
    w &&& (BitVec.allOnes width).setWidth 64 <<< lo = 0 ↔ field w lo width = 0 := by
  rw [field_eq_zero_iff]
  simp only [BitVec.eq_of_getLsbD_eq_iff, BitVec.getLsbD_and, BitVec.getLsbD_shiftLeft, BitVec.getLsbD_setWidth,
    BitVec.getLsbD_allOnes, BitVec.ofNat_eq_ofNat, BitVec.getLsbD_zero]
  constructor
  · intro hz i hi
    have := hz (lo + i) (by omega)
    grind
  · intro hz i hi
    have := hz (i - lo)
    grind

theorem and_or_eq_zero {a b : CmdWord} : w &&& (a ||| b) = 0 ↔ w &&& a = 0 ∧ w &&& b = 0 := by
  rw [BitVec.and_or_distrib_left]
  exact BitVec.or_eq_zero_iff

/-- The reserved bits of SETB and SETP (R64). -/
theorem reserved_setb : w &&& 0xFFF = 0 ↔ field w 0 12 = 0 :=
  and_fieldMask_eq_zero w (lo := 0) (width := 12) (by decide)

theorem reserved_set : w &&& 0xFFFFF = 0 ↔ field w 0 20 = 0 :=
  and_fieldMask_eq_zero w (lo := 0) (width := 20) (by decide)

/-- The reserved bits of GET and ROT. -/
theorem reserved_get : w &&& 0xFFFFFFFFFFF = 0 ↔ field w 0 44 = 0 :=
  and_fieldMask_eq_zero w (lo := 0) (width := 44) (by decide)

/-- The reserved bits of SHOW, CLEAR and TEARDOWN. -/
theorem reserved_bare : w &&& 0x0FFFFFFFFFFFFFFF = 0 ↔ field w 0 60 = 0 :=
  and_fieldMask_eq_zero w (lo := 0) (width := 60) (by decide)

theorem reserved_setgb : w &&& 0x0FFFFFFFFFF00FFF = 0 ↔ field w 20 40 = 0 ∧ field w 0 12 = 0 := by
  rw [← reserved_setb, ← and_fieldMask_eq_zero w (lo := 20) (width := 40) (by decide)]
  exact and_or_eq_zero (a := 0x0FFFFFFFFFF00000) (b := 0xFFF)

theorem reserved_config : w &&& 0x0000000FFFF003FF = 0 ↔ field w 20 16 = 0 ∧ field w 0 10 = 0 := by
  rw [← and_fieldMask_eq_zero w (lo := 0) (width := 10) (by decide),
    ← and_fieldMask_eq_zero w (lo := 20) (width := 16) (by decide)]
  exact and_or_eq_zero (a := 0x0000000FFFF00000) (b := 0x3FF)

/-- The operation codes without a format are 0 and those from 11 up (R75 a). -/
theorem reservedMask_eq_none {op : BitVec 4} : reservedMask op = none ↔ op.toNat = 0 ∨ 11 ≤ op.toNat := by
  revert op; decide

/-! ## Which words are illegal -/

theorem decodeCommand_error_of_no_format (h : reservedMask (opOf w) = none) : ∃ e, decodeCommand w = .error e := by
  unfold decodeCommand
  rw [h]
  exact ⟨_, rfl⟩

/-- The operations that have a format are those that have operands. -/
theorem operandsOf_isSome (w : CmdWord) : (operandsOf w).isSome = (reservedMask (opOf w)).isSome := by
  unfold operandsOf reservedMask
  split <;> rfl

/-- A word whose operation has a format is illegal exactly by its reserved bits (R75 b). -/
theorem decodeCommand_error_iff {m : CmdWord} (h : reservedMask (opOf w) = some m) :
    (∃ e, decodeCommand w = .error e) ↔ ¬w &&& m = 0 := by
  obtain ⟨i, hi⟩ := Option.isSome_iff_exists.1 ((operandsOf_isSome w).trans (by rw [h]; rfl))
  unfold decodeCommand
  rw [h, hi]
  by_cases hz : w &&& m = 0
  · simp [hz]
  · simp only [hz]
    simp

/-- An operation code has no format or is one of the ten of R62. -/
theorem op_cases (w : CmdWord) :
    reservedMask (opOf w) = none ∨ opOf w = 1 ∨ opOf w = 2 ∨ opOf w = 3 ∨ opOf w = 4 ∨ opOf w = 5 ∨ opOf w = 6 ∨
      opOf w = 7 ∨ opOf w = 8 ∨ opOf w = 9 ∨ opOf w = 10 := by
  generalize opOf w = op
  revert op; decide

/-- Settles O3: operation code by operation code, the reserved bits as fields. -/
theorem illegalExactlyByReservedBits : Obligations.IllegalExactlyByReservedBits := by
  intro w
  rw [show field w 60 4 = opOf w from rfl]
  have hillegal {op : BitVec 4} {m : CmdWord} (hop : opOf w = op) (hm : reservedMask op = some m) :
      (∃ e, decodeCommand w = .error e) ↔ ¬w &&& m = 0 := decodeCommand_error_iff (hop ▸ hm)
  rcases op_cases w with h | h | h | h | h | h | h | h | h | h | h
  · exact iff_of_true (decodeCommand_error_of_no_format h) ((reservedMask_eq_none.1 h).imp_right .inl)
  · rw [hillegal h rfl, reserved_config, h]; simp [imp_iff_not_or]
  · rw [hillegal h rfl, reserved_set, h]; simp
  · rw [hillegal h rfl, reserved_setb, h]; simp
  · rw [hillegal h rfl, reserved_setb, h]; simp
  · rw [hillegal h rfl, reserved_get, h]; simp
  · rw [hillegal h rfl, reserved_get, h]; simp
  · rw [hillegal h rfl, reserved_setgb, h]; simp [imp_iff_not_or]
  · rw [hillegal h rfl, reserved_bare, h]; simp
  · rw [hillegal h rfl, reserved_bare, h]; simp
  · rw [hillegal h rfl, reserved_bare, h]; simp

/-! ## Words read back -/

/-- The fields of a word laid out as CONFIG's, wherever its parts come from. -/
theorem configLayout_fields (op : BitVec 4) (n : BitVec 16) (tg : BitVec 8) (high : BitVec 16) (g : BitVec 8)
    (h k : BitVec 1) (low : BitVec 10) :
    let w := op ++ n ++ tg ++ high ++ g ++ h ++ k ++ low
    opOf w = op ∧ field w 44 16 = n ∧ field w 36 8 = tg ∧ field w 12 8 = g ∧ field w 11 1 = h ∧ field w 10 1 = k := by
  simp (disch := decide) only [opOf, field_append_of_le, field_append_of_add_le, field_self, Nat.reduceSub, and_self]

theorem operandsOf_of_op_config {w : CmdWord} (hop : opOf w = 1) :
    operandsOf w =
      some (.config (field w 44 16) (field w 36 8) (field w 12 8) (field w 11 1) (field w 10 1)) := by
  unfold operandsOf; rw [hop]; rfl

theorem operandsOf_of_op_setp (hop : opOf w = 4) :
    operandsOf w = some (.setp (field w 44 16) (field w 20 24) (field w 12 8)) := by
  unfold operandsOf; rw [hop]; rfl

theorem operandsOf_of_op_showFrame (hop : opOf w = 8) : operandsOf w = some .showFrame := by
  unfold operandsOf; rw [hop]; rfl

theorem operandsOf_of_op_clear (hop : opOf w = 9) : operandsOf w = some .clear := by
  unfold operandsOf; rw [hop]; rfl

theorem operandsOf_of_op_teardown (hop : opOf w = 10) : operandsOf w = some .teardown := by
  unfold operandsOf; rw [hop]; rfl

theorem decodeCommand_config (n : BitVec 16) (tg g : BitVec 8) (h k : BitVec 1) :
    decodeCommand (1#4 ++ n ++ tg ++ 0#16 ++ g ++ h ++ k ++ 0#10) = .ok (.config n tg g h k) := by
  obtain ⟨hop, hn, htg, hg, hh, hk⟩ := configLayout_fields 1 n tg 0 g h k 0
  have hres := and_eq_zero_of_and_eq (bits := 0x0000000FFFF003FF) (Laws.TableMatch.config n tg g h k).2
    (by decide) (by decide)
  exact decodeCommand_of_op hop rfl hres ((operandsOf_of_op_config hop).trans (by rw [hn, htg, hg, hh, hk]))

/-- A frame with the marker is the pixel frame of its fields, first of its transaction or not (R77). -/
theorem decodeFrame_pixelFrame (first : Bool) (q : BitVec 5) (x y z : Byte) :
    decodeFrame first (7#3 ++ q ++ x ++ y ++ z) = .ok (.pixelFrame q x y z) := by
  have hfields : field (7#3 ++ q ++ x ++ y ++ z) 29 3 = 7 ∧ field (7#3 ++ q ++ x ++ y ++ z) 24 5 = q ∧
      field (7#3 ++ q ++ x ++ y ++ z) 16 8 = x ∧ field (7#3 ++ q ++ x ++ y ++ z) 8 8 = y ∧
      field (7#3 ++ q ++ x ++ y ++ z) 0 8 = z := by
    simp (disch := decide) only [field_append_of_le, field_append_of_add_le, field_self, Nat.reduceSub, and_self]
    decide
  obtain ⟨hm, hq, hx, hy, hz⟩ := hfields
  have hne : 7#3 ++ q ++ x ++ y ++ z ≠ 0 := fun h0 => by rw [h0] at hm; exact absurd hm (by decide)
  unfold decodeFrame
  rw [if_neg hne, if_pos hm, hq, hx, hy, hz]

/-- Settles O1: each word by its layout; the two zero frames by their place. -/
theorem decodeEncodeRoundTrip : Obligations.DecodeEncodeRoundTrip := by
  intro i
  cases i with
  | config n tg g h k => exact decodeCommand_config n tg g h k
  | set idx r g b => exact decodeCommand_set idx r g b
  | setb idx r g b pct => exact decodeCommand_setb idx r g b pct
  | setp idx c pct => exact decodeCommand_setp idx c pct
  | get idx => exact decodeCommand_get idx
  | rot pos => exact Machine.decodeCommand_rot pos
  | setgb val => exact Machine.decodeCommand_setgb val
  | pixelFrame q x y z => exact decodeFrame_pixelFrame _ q x y z
  | showFrame | clear | teardown | startFrame | resetFrame | endPadByte => rfl

/-! ## Words written again

In the layout of each format a word is its operation code, its operand fields and zeros where bits are reserved. -/

theorem configLayout_eq (hop : opOf w = op) (hres : w &&& 0x0000000FFFF003FF = 0) :
    op ++ field w 44 16 ++ field w 36 8 ++ 0#16 ++ field w 12 8 ++ field w 11 1 ++ field w 10 1 ++ 0#10 = w := by
  subst hop
  obtain ⟨hhigh, hlow⟩ : field w 20 16 = 0#16 ∧ field w 0 10 = 0#10 := reserved_config.1 hres
  rw [← hhigh, ← hlow]
  simp (disch := decide) only [opOf, field_append_field]
  exact field_self w

theorem setLayout_eq (hop : opOf w = op) (hres : w &&& 0xFFFFF = 0) :
    op ++ field w 44 16 ++ field w 36 8 ++ field w 28 8 ++ field w 20 8 ++ 0#20 = w := by
  subst hop
  have hlow : field w 0 20 = 0#20 := reserved_set.1 hres
  rw [← hlow]
  simp (disch := decide) only [opOf, field_append_field]
  exact field_self w

theorem setbLayout_eq (hop : opOf w = op) (hres : w &&& 0xFFF = 0) :
    op ++ field w 44 16 ++ field w 36 8 ++ field w 28 8 ++ field w 20 8 ++ field w 12 8 ++ 0#12 = w := by
  subst hop
  have hlow : field w 0 12 = 0#12 := reserved_setb.1 hres
  rw [← hlow]
  simp (disch := decide) only [opOf, field_append_field]
  exact field_self w

theorem setpLayout_eq (hop : opOf w = op) (hres : w &&& 0xFFF = 0) :
    op ++ field w 44 16 ++ field w 20 24 ++ field w 12 8 ++ 0#12 = w := by
  subst hop
  have hlow : field w 0 12 = 0#12 := reserved_setb.1 hres
  rw [← hlow]
  simp (disch := decide) only [opOf, field_append_field]
  exact field_self w

theorem getLayout_eq (hop : opOf w = op) (hres : w &&& 0xFFFFFFFFFFF = 0) : op ++ field w 44 16 ++ 0#44 = w := by
  subst hop
  have hlow : field w 0 44 = 0#44 := reserved_get.1 hres
  rw [← hlow]
  simp (disch := decide) only [opOf, field_append_field]
  exact field_self w

theorem setgbLayout_eq (hop : opOf w = op) (hres : w &&& 0x0FFFFFFFFFF00FFF = 0) :
    op ++ 0#40 ++ field w 12 8 ++ 0#12 = w := by
  subst hop
  obtain ⟨hhigh, hlow⟩ : field w 20 40 = 0#40 ∧ field w 0 12 = 0#12 := reserved_setgb.1 hres
  rw [← hhigh, ← hlow]
  simp (disch := decide) only [opOf, field_append_field]
  exact field_self w

theorem bareLayout_eq (hop : opOf w = op) (hres : w &&& 0x0FFFFFFFFFFFFFFF = 0) : op ++ 0#60 = w := by
  subst hop
  have hlow : field w 0 60 = 0#60 := reserved_bare.1 hres
  rw [← hlow]
  simp (disch := decide) only [opOf, field_append_field]
  exact field_self w

/-- A command word that decodes is the word of its instruction: its fields in their places, zero where the format
reserves bits. -/
theorem encode_of_decodeCommand (h : decodeCommand w = .ok i) : encode i = .command w := by
  obtain ⟨⟨m, hm, hres⟩, hi⟩ := decodeCommand_eq_ok.1 h
  have hzero {op : BitVec 4} {k : CmdWord} (hop : opOf w = op) (hk : reservedMask op = some k) : w &&& k = 0 := by
    cases (hop ▸ hk).symm.trans hm
    exact hres
  rcases op_cases w with hop | hop | hop | hop | hop | hop | hop | hop | hop | hop | hop
  · exact nomatch hop.symm.trans hm
  · cases (operandsOf_of_op_config hop).symm.trans hi
    exact congrArg PortWord.command (configLayout_eq hop (hzero hop rfl))
  · cases (operandsOf_of_op_set hop).symm.trans hi
    exact congrArg PortWord.command (setLayout_eq hop (hzero hop rfl))
  · cases (operandsOf_of_op_setb hop).symm.trans hi
    exact congrArg PortWord.command (setbLayout_eq hop (hzero hop rfl))
  · cases (operandsOf_of_op_setp hop).symm.trans hi
    exact congrArg PortWord.command (setpLayout_eq hop (hzero hop rfl))
  · cases (operandsOf_of_op_get hop).symm.trans hi
    exact congrArg PortWord.command (getLayout_eq hop (hzero hop rfl))
  · cases (Machine.operandsOf_of_op_rot hop).symm.trans hi
    exact congrArg PortWord.command (getLayout_eq hop (hzero hop rfl))
  · cases (Machine.operandsOf_of_op_setgb hop).symm.trans hi
    exact congrArg PortWord.command (setgbLayout_eq hop (hzero hop rfl))
  · cases (operandsOf_of_op_showFrame hop).symm.trans hi
    exact congrArg PortWord.command (bareLayout_eq hop (hzero hop rfl))
  · cases (operandsOf_of_op_clear hop).symm.trans hi
    exact congrArg PortWord.command (bareLayout_eq hop (hzero hop rfl))
  · cases (operandsOf_of_op_teardown hop).symm.trans hi
    exact congrArg PortWord.command (bareLayout_eq hop (hzero hop rfl))

/-- A wire frame that decodes is the frame of its instruction. -/
theorem encode_of_decodeFrame {first : Bool} {f : FrameWord} (h : decodeFrame first f = .ok i) : encode i = .frame f := by
  unfold decodeFrame at h
  split at h
  case isTrue hz => cases first <;> cases h <;> rw [hz] <;> rfl
  case isFalse =>
    split at h
    case isTrue hm =>
      cases h
      have hself : field f 29 3 ++ field f 24 5 ++ field f 16 8 ++ field f 8 8 ++ field f 0 8 = f := by
        simp (disch := decide) only [field_append_field]
        exact field_self f
      exact congrArg PortWord.frame (by simpa only [hm, BitVec.ofNat_eq_ofNat] using hself)
    case isFalse => cases h

theorem encode_of_decodePad {b : Byte} (h : decodePad b = .ok i) : encode i = .pad b := by
  unfold decodePad at h
  split at h
  case isTrue hz => cases h; rw [hz]; rfl
  case isFalse => cases h

/-- Settles O2: port by port. -/
theorem decodedWordIsItsEncoding : Obligations.DecodedWordIsItsEncoding := by
  intro first p i h
  cases p with
  | command w => exact encode_of_decodeCommand h
  | frame f => exact encode_of_decodeFrame h
  | pad b => exact encode_of_decodePad h

/-! ## SETP's word beside SETB's -/

/-- A packed colour taken apart is the three byte fields SETB has in its place (R70). -/
theorem unpack_field (w : CmdWord) :
    Machine.redOf (field w 20 24) = field w 36 8 ∧ Machine.greenOf (field w 20 24) = field w 28 8 ∧
      Machine.blueOf (field w 20 24) = field w 20 8 :=
  ⟨field_field w (by decide), field_field w (by decide), field_field w (by decide)⟩

/-- Settles O6: the two words have the same operand fields, and both instructions are the common pixel write. -/
theorem setpWordActsAsSetbWord : Obligations.SetpWordActsAsSetbWord := by
  intro w v i j s hw hv hlow hi hj
  cases (operandsOf_of_op_setb hw).symm.trans (decodeCommand_eq_ok.1 hi).2
  cases (operandsOf_of_op_setp hv).symm.trans (decodeCommand_eq_ok.1 hj).2
  have hsame {lo width : Nat} (h : lo + width ≤ 60) : field w lo width = field v lo width := by
    have := congrArg (field · lo width) hlow
    simpa only [field_field _ h, Nat.zero_add] using this
  obtain ⟨hr, hg, hb⟩ := unpack_field v
  rw [Machine.exec_setb, Machine.exec_setp, hr, hg, hb, hsame (by decide), hsame (by decide), hsame (by decide),
    hsame (by decide), hsame (by decide)]

/-- Settles O5: the decoder, run on each word. -/
theorem specWordsDecode : Obligations.SpecWordsDecode :=
  ⟨rfl, rfl, rfl, rfl, rfl, rfl, rfl, rfl, rfl⟩

end Sys2Proof
end

section
/-! PROOFS. The step: what it is in each case of fetching, and how it can stop (10_state.md R21; 30_encoding.md R75;
70_reset_and_hazards.md R190, R197, R205). -/

namespace Sys2Proof.Machine

variable {s t : State} {i : Instr} {p : PortWord} {w : Waiting} {rest : List Event}

/-! ## The step, case by case -/

theorem step_reset (h : s.inbox = .reset :: rest) : step s = .next (State.assertReset { s with inbox := rest }) := by
  unfold step; rw [fetch_reset h]

theorem step_waiting (hw : s.waiting = some w) (hi : ∀ rest, s.inbox ≠ .reset :: rest) :
    step s = .next (resume s w) := by
  unfold step; rw [fetch_waiting hi hw]

theorem step_idle (hw : s.waiting = none) (hi : s.inbox = []) : step s = .next s := by
  unfold step; rw [fetch_idle hi hw]

theorem step_decoded (hw : s.waiting = none) (hi : s.inbox = .word p :: rest) (hd : decode s.frame.isEmpty p = .ok i) :
    step s = exec i (State.record { s with inbox := rest } p) := by
  have haccept : accept p { s with inbox := rest } = .runs i (State.record { s with inbox := rest } p) := by
    unfold accept; rw [hd]
  unfold step; rw [fetch_word hi hw, haccept]

/-- A wire word that is no frame is refused (log 17). -/
theorem step_noSuchFrame (hw : s.waiting = none) (hi : s.inbox = .word p :: rest)
    (hd : decode s.frame.isEmpty p = .error .noSuchFrame) : step s = .refused .notAWireFrame := by
  have haccept : accept p { s with inbox := rest } = .stopped .notAWireFrame := by
    unfold accept; rw [hd]
  unfold step; rw [fetch_word hi hw, haccept]

/-- A word that does not decode is an illegal command or no frame at the wire port. -/
theorem decode_error_cases {first : Bool} {e : DecodeError} (hd : decode first p = .error e) :
    (∃ c, p = .command c ∧ decodeCommand c = .error e) ∨ ((∀ c, p ≠ .command c) ∧ e = .noSuchFrame) := by
  cases p with
  | command c => exact .inl ⟨c, rfl, hd⟩
  | frame f => exact .inr ⟨fun _ => PortWord.noConfusion, decodeFrame_error hd⟩
  | pad b => exact .inr ⟨fun _ => PortWord.noConfusion, decodePad_error hd⟩

/-- A step answers a next state, refuses a wire word that is no frame, or is the run of the instruction presented. -/
theorem step_outcomes (s : State) :
    (∃ t, step s = .next t) ∨
      (∃ p rest, s.inbox = .word p :: rest ∧ (∀ c, p ≠ .command c) ∧ decode s.frame.isEmpty p = .error .noSuchFrame ∧
        step s = .refused .notAWireFrame) ∨
      ∃ p rest i, s.waiting = none ∧ s.inbox = .word p :: rest ∧ decode s.frame.isEmpty p = .ok i ∧
        step s = exec i (State.record { s with inbox := rest } p) := by
  rcases inbox_cases s with hi | ⟨rest, hi⟩ | ⟨p, rest, hi⟩
  · cases hw : s.waiting with
    | none => exact .inl ⟨_, step_idle hw hi⟩
    | some w => exact .inl ⟨_, step_waiting hw (by simp [hi])⟩
  · exact .inl ⟨_, step_reset hi⟩
  · cases hw : s.waiting with
    | some w => exact .inl ⟨_, step_waiting hw (by simp [hi])⟩
    | none =>
      cases hd : decode s.frame.isEmpty p with
      | ok i => exact .inr (.inr ⟨p, rest, i, rfl, hi, hd, step_decoded hw hi hd⟩)
      | error e =>
        rcases decode_error_cases hd with ⟨c, rfl, hc⟩ | ⟨hp, rfl⟩
        · exact .inl ⟨_, step_illegal hw hi hc⟩
        · exact .inr (.inl ⟨p, rest, hi, hp, hd, step_noSuchFrame hw hi hd⟩)

/-! ## How an instruction can stop -/

/-- The whole buffer is read, or it holds an unwritten byte. -/
theorem State.memRead_whole_outcomes (s : State) :
    (∃ px, s.memRead 0 s.bufLen = .ok px) ∨ (¬s.held ∧ ∃ a, s.memRead 0 s.bufLen = .error (.unwrittenByte a)) := by
  cases h : s.memRead 0 s.bufLen with
  | ok px => exact .inl ⟨px, rfl⟩
  | error f =>
    obtain ⟨a, rfl⟩ := State.memRead_error h (by omega)
    refine .inr ⟨fun hheld => ?_, a, rfl⟩
    obtain ⟨px, hpx⟩ := State.held_exists_holdsBytes hheld
    exact nomatch h.symm.trans (State.memRead_whole_eq_ok.2 hpx)

/-- A pixel the chain has is loaded, or the buffer holds an unwritten byte. -/
theorem State.loadPixel_outcomes {j : Nat} (hj : j < s.numleds.toNat) :
    (∃ px, s.loadPixel j = .ok px) ∨ (¬s.held ∧ ∃ a, s.loadPixel j = .error (.unwrittenByte a)) := by
  cases h : s.loadPixel j with
  | ok px => exact .inl ⟨px, rfl⟩
  | error f =>
    obtain ⟨a, rfl⟩ := State.loadPixel_error h hj
    refine .inr ⟨fun hheld => ?_, a, rfl⟩
    have hread (k : Nat) (hk : k < 4) : ∃ v, s.readByte (4 * j + k) = .ok v := by
      obtain ⟨v, hv⟩ := Option.isSome_iff_exists.1 (hheld (4 * j + k) (by omega))
      exact ⟨v, State.readByte_eq_ok.2 ⟨by rw [State.bufLen_eq]; omega, hv⟩⟩
    obtain ⟨hd, hhd⟩ := hread 0 (by decide)
    obtain ⟨r, hr⟩ := hread _ s.order.r.isLt
    obtain ⟨g, hg⟩ := hread _ s.order.g.isLt
    obtain ⟨b, hb⟩ := hread _ s.order.b.isLt
    exact nomatch h.symm.trans (State.loadPixel_eq_ok (px := ⟨hd, r, g, b⟩).2 ⟨hhd, hr, hg, hb⟩)

theorem setPixel_next (idx : BitVec 16) (r g b : Byte) (pct : BitVec 8) (s : State) :
    ∃ t, setPixel idx r g b pct s = .next t := by
  rw [setPixel_eq]
  cases pixelIndex idx s.numleds <;> exact ⟨_, rfl⟩

/-- In READY an instruction answers a next state, or the buffer holds an unwritten byte and it faults on one. -/
theorem exec_outcomes_ready (hm : s.mode = .ready) (i : Instr) :
    (∃ t, exec i s = .next t) ∨ (¬s.held ∧ ∃ a, exec i s = .fault (.unwrittenByte a)) := by
  cases i with
  | set idx r g b => rw [exec_set, whenReady_ready hm]; exact .inl (setPixel_next ..)
  | setb idx r g b pct => rw [exec_setb, whenReady_ready hm]; exact .inl (setPixel_next ..)
  | setp idx c pct => rw [exec_setp, whenReady_ready hm]; exact .inl (setPixel_next ..)
  | get idx =>
    rw [exec_get_ready hm]
    cases hj : pixelIndex idx s.numleds with
    | none => exact .inl ⟨_, rfl⟩
    | some j =>
      by_cases hgb : s.gb = 0
      · exact .inl ⟨_, if_pos hgb⟩
      · simp only [if_neg hgb]
        rcases State.loadPixel_outcomes (pixelIndex_eq_some.1 hj).2 with ⟨px, hpx⟩ | ⟨hheld, a, ha⟩
        · exact .inl ⟨_, by rw [hpx]⟩
        · exact .inr ⟨hheld, a, by rw [ha]⟩
  | rot pos =>
    rw [exec_rot_ready hm]
    rcases s.memRead_whole_outcomes with ⟨px, hpx⟩ | ⟨hheld, a, ha⟩
    · exact .inl ⟨_, by rw [hpx]⟩
    · exact .inr ⟨hheld, a, by rw [ha]⟩
  | setgb val => rw [exec_setgb_ready hm]; split <;> exact .inl ⟨_, rfl⟩
  | config n tg g h k => exact .inl ⟨_, exec_config_already hm⟩
  | showFrame =>
    rw [exec_showFrame_ready hm]
    unfold State.flush State.buildFrame
    rcases s.memRead_whole_outcomes with ⟨px, hpx⟩ | ⟨hheld, a, ha⟩
    · exact .inl ⟨_, by rw [hpx]⟩
    · exact .inr ⟨hheld, a, by rw [ha]⟩
  | clear =>
    obtain ⟨f, -, hf⟩ := s.blanked_flush .clear
    exact .inl ⟨_, (exec_clear_ready hm).trans hf⟩
  | teardown =>
    obtain ⟨f, -, hf⟩ := s.blanked_flush .teardown
    exact .inl ⟨_, (exec_teardown_ready hm).trans hf⟩
  | startFrame | pixelFrame q x y z | resetFrame | endPadByte => exact .inl ⟨_, rfl⟩

/-- In UNCONFIGURED every instruction answers a next state. -/
theorem exec_next_unconfigured (hm : s.mode = .unconfigured) (i : Instr) : ∃ t, exec i s = .next t := by
  cases i with
  | set idx r g b => exact ⟨_, (exec_set ..).trans (whenReady_unconfigured hm _)⟩
  | setb idx r g b pct => exact ⟨_, (exec_setb ..).trans (whenReady_unconfigured hm _)⟩
  | setp idx c pct => exact ⟨_, (exec_setp ..).trans (whenReady_unconfigured hm _)⟩
  | get idx => exact ⟨_, exec_get_unconfigured hm idx⟩
  | rot pos => exact ⟨_, exec_rot_unconfigured hm pos⟩
  | setgb val => exact ⟨_, exec_setgb_unconfigured hm val⟩
  | config n tg g h k =>
    rw [exec_config, hm]
    cases configError n g k <;> exact ⟨_, rfl⟩
  | showFrame => exact ⟨_, exec_showFrame_unconfigured hm⟩
  | clear => exact ⟨_, exec_clear_unconfigured hm⟩
  | teardown => exact ⟨_, exec_teardown_unconfigured hm⟩
  | startFrame | pixelFrame q x y z | resetFrame | endPadByte => exact ⟨_, rfl⟩

/-- An instruction answers a next state, or faults on an unwritten byte in a READY state that has one. -/
theorem exec_outcomes (i : Instr) (s : State) :
    (∃ t, exec i s = .next t) ∨ (s.mode = .ready ∧ ¬s.held ∧ ∃ a, exec i s = .fault (.unwrittenByte a)) := by
  rcases s.mode_cases with hm | hm
  · exact .inl (exec_next_unconfigured hm i)
  · exact (exec_outcomes_ready hm i).imp_right (⟨hm, ·⟩)

/-! ## Transport calls -/

/-- The operation waits for a T_write, which CONFIG does not. -/
abbrev Waiting.isWrite (w : Waiting) : Prop := w = .showFrame ∨ w = .clear ∨ w = .teardown

/-- What holds of the state that waits and of every completed one holds after a transport call. -/
theorem State.callTransport_of {P : State → Prop} (hwait : P { s with waiting := some w })
    (hdone : ∀ r rest, P (State.complete { s with answers := rest, waiting := none } w r)) : P (s.callTransport w) := by
  rcases s.callTransport_cases w with ⟨-, he⟩ | ⟨r, rest, -, he⟩ <;> rw [he]
  · exact hwait
  · exact hdone r rest

/-- What holds of a state and of every one it can complete to holds when its operation is resumed. -/
theorem resume_of {P : State → Prop} (hstay : P s)
    (hdone : ∀ r rest, P (State.complete { s with answers := rest, waiting := none } w r)) : P (resume s w) := by
  rcases resume_cases s w with ⟨-, he⟩ | ⟨r, rest, -, he⟩ <;> rw [he]
  · exact hstay
  · exact hdone r rest

/-! ## The effects that make no transport call, and those that make one -/

/-- At most GB, the buffer, the frame and the responses differ. -/
def quiet (s t : State) : Prop :=
  t = { s with gb := t.gb, buf := t.buf, frame := t.frame, responses := t.responses }

/-- An effect is quiet, is a T_acquire in UNCONFIGURED, or is a T_write in READY of the buffer as it is or blanked. -/
theorem Effect.quiet_or_call (he : Effect i s t) :
    quiet s t ∨
      (∃ n tg g hr, s.mode = .unconfigured ∧ t = s.callTransport (.acquire n tg g hr)) ∨
      ∃ v w f, (v = s ∨ v = s.blanked) ∧ w.isWrite ∧ s.mode = .ready ∧ v.buildFrame = .ok f ∧
        t = State.callTransport { v with frame := f } w := by
  cases he with
  | answers _ _ ht => rw [ht]; exact .inl rfl
  | reads _ _ _ _ _ _ _ ht => rw [ht]; exact .inl rfl
  | brightens _ _ _ _ ht => rw [ht]; exact .inl rfl
  | stores _ _ _ _ _ _ _ _ ht => rw [ht]; exact .inl rfl
  | rotates _ _ _ _ _ ht => rw [ht]; exact .inl rfl
  | puts _ _ ht => rw [ht]; exact .inl rfl
  | acquires n tg g hr _ _ hm _ ht => exact .inr (.inl ⟨n, tg, g, hr, hm, ht⟩)
  | shows _ hm f hf ht => exact .inr (.inr ⟨s, _, f, .inl rfl, .inl rfl, hm, hf, ht⟩)
  | blanks hm w hw f hf ht =>
    exact .inr (.inr ⟨s.blanked, w, f, .inr rfl, .inr (hw.imp And.right And.right), hm, hf, ht⟩)

/-! ## The obligations about the step -/

/-- Settles O8: every instruction is well-formed, and the state without the word is the one the command has joined. -/
theorem stepRunsDecodedInstruction : Obligations.StepRunsDecodedInstruction := by
  intro s p rest i hw hi hd
  exact ⟨by cases i <;> rfl, step_decoded hw hi hd⟩

/-- Settles O10: with no word there to take, fetching is all a step does. -/
theorem idleStepChangesNothing : Obligations.IdleStepChangesNothing := fun _ hw hi => step_idle hw hi

/-- Settles O11: reset is looked at before anything else, and leaves the fields R190 says. -/
theorem resetInputUnconfigures : Obligations.ResetInputUnconfigures := fun _ _ h =>
  ⟨_, step_reset h, rfl, rfl, rfl, rfl, rfl, rfl, rfl⟩

/-- Settles O9: the step resumes the operation, which completes with an answer and stays without one. -/
theorem waitingOperationTakesNoWord : Obligations.WaitingOperationTakesNoWord := by
  intro s w hw hi
  refine ⟨fun ha => ?_, fun r rest ha => ⟨_, statusWord r.status, step_waiting hw hi, ?_⟩⟩
  · rw [step_waiting hw hi, resume_nil ha]
  · rw [resume_cons ha]
    exact ⟨State.complete_inbox .., State.complete_answers .., State.complete_waiting .., State.complete_responses ..⟩

/-- Settles O59: a hung run waits with no answer left. -/
theorem hungRunStaysHung : Obligations.HungRunStaysHung := by
  rintro s ⟨hw, ha, hi⟩
  obtain ⟨w, hw⟩ : ∃ w, s.waiting = some w := by rcases hw with h | h | h <;> exact ⟨_, h⟩
  rw [step_waiting hw fun rest h => hi (by rw [h]; rfl), resume_nil ha]

/-- Settles O49: the one fault of an instruction is an unwritten byte. -/
theorem noInstructionLeavesBuffer : Obligations.NoInstructionLeavesBuffer := by
  intro i s a h
  rcases exec_outcomes i s with ⟨t, ht⟩ | ⟨-, -, b, hb⟩
  · exact nomatch ht.symm.trans h
  · exact nomatch hb.symm.trans h

/-- Settles O14: of the outcomes of a step only the wire word that is no frame is a refusal. -/
theorem onlyWireWordsAreRefused : Obligations.OnlyWireWordsAreRefused := by
  intro s r h
  rcases step_outcomes s with ⟨t, ht⟩ | ⟨p, rest, hi, hp, hd, hr⟩ | ⟨p, rest, i, -, -, -, hrun⟩
  · exact nomatch ht.symm.trans h
  · cases hr.symm.trans h
    exact ⟨rfl, p, rest, _, hi, hp, hd⟩
  · rcases exec_outcomes i (State.record { s with inbox := rest } p) with ⟨t, ht⟩ | ⟨-, -, a, ha⟩
    · exact nomatch (hrun.trans ht).symm.trans h
    · exact nomatch (hrun.trans ha).symm.trans h

end Sys2Proof.Machine
end

section
/-! PROOFS. The canonical form of the buffer and the invariant of a run: what a write keeps of a constructed buffer, what
completing an operation leaves, and that every step keeps both (10_state.md R24, R25, R28, R31; 20_memory.md R43). -/

namespace Sys2Proof.Machine

variable {s t : State} {i : Instr} {w : Waiting} {r : TResult}

/-! ## The canonical form -/

theorem State.complete_wf (h : Memory.wf s.buf) (w : Waiting) (r : TResult) : Memory.wf (s.complete w r).buf := by
  cases w with
  | acquire n tg g hr =>
    cases r with
    | ok => exact Memory.wf_ofBytes 0 _
    | err => exact h
  | showFrame | clear => exact h
  | teardown => exact Memory.wf_nil

theorem State.callTransport_wf (h : Memory.wf s.buf) (w : Waiting) : Memory.wf (s.callTransport w).buf :=
  State.callTransport_of (P := fun u => Memory.wf u.buf) h fun r rest =>
    State.complete_wf (s := { s with answers := rest, waiting := none }) h w r

theorem resume_wf (h : Memory.wf s.buf) (w : Waiting) : Memory.wf (resume s w).buf :=
  resume_of (P := fun u => Memory.wf u.buf) h fun r rest =>
    State.complete_wf (s := { s with answers := rest, waiting := none }) h w r

theorem State.blanked_wf (h : Memory.wf s.buf) : Memory.wf s.blanked.buf := Memory.wf_write h 0 _

theorem Effect.wf (he : Effect i s t) (h : Memory.wf s.buf) : Memory.wf t.buf := by
  cases he with
  | answers _ _ ht => rw [ht]; exact h
  | reads _ _ _ _ _ _ _ ht => rw [ht]; exact h
  | brightens _ _ _ _ ht => rw [ht]; exact h
  | stores _ _ j _ r g b q ht => rw [ht]; exact Memory.wf_write h (4 * j) _
  | rotates _ _ _ _ _ ht => rw [ht]; exact Memory.wf_write h 0 _
  | acquires n tg g hr _ _ _ _ ht => rw [ht]; exact State.callTransport_wf h _
  | shows _ _ f _ ht => rw [ht]; exact State.callTransport_wf (s := { s with frame := f }) h _
  | blanks _ w _ f _ ht =>
    rw [ht]; exact State.callTransport_wf (s := { s.blanked with frame := f }) (State.blanked_wf h) w
  | puts _ _ ht => rw [ht]; exact h

/-- Settles O50: each way a step can go writes the buffer in its canonical form or leaves it. -/
theorem stepKeepsMemoryCanonical : Obligations.StepKeepsMemoryCanonical := by
  intro s t h hstep
  rcases step_cases hstep with ⟨rest, -, rfl⟩ | ⟨w, -, -, rfl⟩ | ⟨-, -, rfl⟩ | ⟨c, rest, e, -, -, -, rfl⟩ |
    ⟨p, rest, i, -, -, -, hrun⟩
  · exact Memory.wf_nil
  · exact resume_wf h w
  · exact h
  · exact h
  · exact (exec_effect hrun).wf h

/-! ## A constructed buffer -/

theorem State.constructed_held (h : s.constructed) : s.held := fun a ha => by
  obtain ⟨-, -, hrange, -⟩ := h
  rw [Memory.read_isSome_of_range hrange]
  exact decide_eq_true ha

/-- A write within a constructed buffer keeps it constructed when the bytes it puts at header offsets carry the marker. -/
theorem State.constructed_write (h : s.constructed) {a : Nat} {bs : List Byte} (hin : a + bs.length ≤ 4 * s.numleds.toNat)
    (hmark : ∀ j, a ≤ 4 * j → 4 * j < a + bs.length → (bs[4 * j - a]?).map (fun b => field b 5 3) = some 7) :
    ({ s with buf := Memory.write s.buf a bs } : State).constructed := by
  obtain ⟨h1, h1024, hrange, hheaders⟩ := h
  refine ⟨h1, h1024, Memory.write_range hrange hin, fun j hj => ?_⟩
  by_cases hw : a ≤ 4 * j ∧ 4 * j < a + bs.length
  · rw [Memory.read_write, if_pos hw]
    exact hmark j hw.1 hw.2
  · rw [Memory.read_write, if_neg hw]
    exact hheaders j hj

theorem State.constructed_storePixel (h : s.constructed) (ho : s.order.legal = true) {j : Nat} (hj : j < s.numleds.toNat)
    (r g b : Byte) (q : BitVec 5) :
    ({ s with buf := Memory.write s.buf (4 * j) (pixelBytes s.order r g b q) } : State).constructed := by
  have hlen := pixelBytes_length s.order r g b q
  refine State.constructed_write h (by omega) fun k hlo hhi => ?_
  obtain ⟨hhdr, -⟩ := pixelBytes_get ho r g b q
  rw [show 4 * k - 4 * j = 0 by omega, hhdr, Option.map_some, marker_headerOf]

/-- The header of each copy of a pixel is the pixel's. -/
theorem repeatPixel_header {n j : Nat} {px : List Byte} (hpx : px.length = 4) (hj : j < n) :
    (repeatPixel n px)[4 * j]? = px[0]? := by
  have := repeatPixel_get (px := px) (k := 0) hj (by omega)
  rwa [hpx] at this

theorem State.constructed_blanked (h : s.constructed) (ho : s.order.legal = true) : s.blanked.constructed := by
  have hlen := pixelBytes_length s.order 0 0 0 (quintet Config.pctDefault s.gb)
  have hall := repeatPixel_length s.numleds.toNat (pixelBytes s.order 0 0 0 (quintet Config.pctDefault s.gb))
  rw [hlen] at hall
  refine State.constructed_write h (by omega) fun j _ hhi => ?_
  obtain ⟨hhdr, -⟩ := pixelBytes_get ho 0 0 0 (quintet Config.pctDefault s.gb)
  rw [Nat.sub_zero, repeatPixel_header hlen (by omega), hhdr, Option.map_some, marker_headerOf]

/-- In either direction a shift by whole pixels brings each header from a header's place. -/
theorem shiftBy_header (d : RotDir) {n m : Nat} {old : List Byte} (hlen : old.length = 4 * n) (hm : m ≤ n) {j : Nat}
    (hj : j < n) : ∃ k < n, (shiftBy d (4 * m) old)[4 * j]? = old[4 * k]? := by
  have hlower (l : Nat) (hl : l ≤ n) : (shiftLower (4 * l) old)[4 * j]? = old[4 * ((j + l) % n)]? := by
    rw [shiftLower_get (by omega) (by omega), hlen, ← Nat.mul_add, Nat.mul_mod_mul_left]
  have hlt (l : Nat) : (j + l) % n < n := Nat.mod_lt _ (by omega)
  cases d with
  | towardLower => exact ⟨_, hlt m, hlower m hm⟩
  | towardHigher =>
    refine ⟨_, hlt (n - m), ?_⟩
    rw [← hlower (n - m) (by omega), shiftBy, show old.length - 4 * m = 4 * (n - m) by omega]

theorem State.constructed_rotated (h : s.constructed) {old : List Byte} (hold : s.memRead 0 s.bufLen = .ok old)
    (pos : BitVec 16) :
    ({ s with
      buf := Memory.write s.buf 0 (shiftBy s.params.rotDir (4 * rotateAmount pos s.numleds) old) } :
      State).constructed := by
  obtain ⟨hlen, hread⟩ := State.memRead_whole_eq_ok.1 hold
  have hm := rotateAmount_lt pos h.1
  refine State.constructed_write h (by rw [shiftBy_length]; omega) fun j _ hhi => ?_
  rw [shiftBy_length] at hhi
  obtain ⟨k, hk, hget⟩ := shiftBy_header s.params.rotDir hlen hm.le (show j < s.numleds.toNat by omega)
  obtain ⟨-, -, -, hheaders⟩ := h
  rw [Nat.sub_zero, hget, ← hread _ (by omega)]
  exact hheaders k hk

theorem State.constructed_construct (s : State) {n : BitVec 16} {tg g : BitVec 8} {hr : BitVec 1} (h1 : 1 ≤ n.toNat)
    (h1024 : n.toNat ≤ 1024) : (s.construct n tg g hr).constructed := by
  have hn : (s.construct n tg g hr).numleds.toNat = n.toNat := State.toNat_construct_numleds h1024
  refine ⟨by rwa [hn], by rwa [hn], ?_, fun j hj => ?_⟩
  · rw [hn, State.construct_buf, Memory.ofBytes_addrs, repeatPixel_length, Nat.mul_comm, List.range_eq_range']
    rfl
  · rw [hn] at hj
    rw [show 4 * j = 4 * j + 0 from rfl, State.read_construct_pixel hj (by decide)]
    rfl

/-! ## The invariant without the wait -/

/-- What the invariant says of the registers, the buffer and the parameters (R24, R25, R28, R31). -/
def State.blockOk (s : State) : Prop :=
  s.order.legal = true ∧ s.params.legal = true ∧ (s.mode = .ready → s.constructed) ∧ (s.mode = .unconfigured → s.buf = [])

theorem State.inv_iff : s.Inv ↔ s.blockOk ∧ s.waitingOk = true := by
  constructor
  · rintro ⟨ho, hp, hready, hempty, hok⟩
    exact ⟨⟨ho, hp, hready, hempty⟩, hok⟩
  · rintro ⟨⟨ho, hp, hready, hempty⟩, hok⟩
    exact ⟨ho, hp, hready, hempty, hok⟩

/-- It depends on MODE, NUMLEDS, ORDER, the buffer and the parameters alone. -/
theorem State.blockOk_congr (hm : t.mode = s.mode) (hn : t.numleds = s.numleds) (ho : t.order = s.order)
    (hb : t.buf = s.buf) (hp : t.params = s.params) : t.blockOk ↔ s.blockOk := by
  unfold State.blockOk State.constructed State.headersMarked
  rw [hm, hn, ho, hb, hp]

/-- In READY a constructed buffer is all that is left to say of a state with this ORDER and these parameters. -/
theorem State.blockOk_of_constructed (ho : s.order.legal = true) (hp : s.params.legal = true) (hm : s.mode = .ready)
    (hc : s.constructed) : s.blockOk :=
  ⟨ho, hp, fun _ => hc, fun h => nomatch hm.symm.trans h⟩

theorem State.undefine_blockOk (hp : s.params.legal = true) : s.undefine.blockOk :=
  ⟨legalOrder_legal _, hp, (nomatch ·), fun _ => rfl⟩

theorem State.assertReset_blockOk (hp : s.params.legal = true) : s.assertReset.blockOk :=
  (State.blockOk_congr rfl rfl rfl rfl rfl).2 (State.undefine_blockOk hp)

theorem State.blanked_blockOk (h : s.blockOk) (hm : s.mode = .ready) : s.blanked.blockOk := by
  obtain ⟨ho, hp, hc, -⟩ := h
  exact State.blockOk_of_constructed ho hp hm (State.constructed_blanked (hc hm) ho)

/-! ## The wait -/

theorem State.waitingOk_of_none (h : s.waiting = none) : s.waitingOk = true := by
  unfold State.waitingOk; rw [h]

theorem State.waitingOk_acquire {n : BitVec 16} {tg g : BitVec 8} {hr : BitVec 1}
    (h : s.waiting = some (.acquire n tg g hr)) :
    s.waitingOk = true ↔ s.mode = .unconfigured ∧ configError n g 1 = none := by
  unfold State.waitingOk
  rw [h]
  simp

theorem State.waitingOk_write (hw : w.isWrite) (h : s.waiting = some w) :
    s.waitingOk = true ↔ s.mode = .ready ∧ s.buildFrame = .ok s.frame := by
  unfold State.waitingOk
  rw [h]
  rcases hw with rfl | rfl | rfl <;> cases s.buildFrame <;> simp

/-- Completing an operation whose operands passed its checks leaves the block in order. -/
theorem State.complete_blockOk (h : s.blockOk) (hw : ∀ n tg g hr, w = .acquire n tg g hr → configError n g 1 = none)
    (r : TResult) : (s.complete w r).blockOk := by
  cases w with
  | acquire n tg g hr =>
    cases r with
    | err => exact (State.blockOk_congr rfl rfl rfl rfl rfl).2 h
    | ok =>
      obtain ⟨-, hp, -⟩ := h
      obtain ⟨h1, h1024, -⟩ := configError_eq_none.1 (hw n tg g hr rfl)
      exact (State.blockOk_congr rfl rfl rfl rfl rfl).2 (State.blockOk_of_constructed (s := s.construct n tg g hr)
        (orderOfCode_legal hp tg) hp rfl (State.constructed_construct s h1 h1024))
  | showFrame | clear => exact (State.blockOk_congr rfl rfl rfl rfl rfl).2 h
  | teardown =>
    obtain ⟨-, hp, -⟩ := h
    exact (State.blockOk_congr rfl rfl rfl rfl rfl).2 (State.undefine_blockOk (s := (s.endWrite r).logCall .release) hp)

/-- A state that waits as it may holds, for a CONFIG, operands that passed its checks. -/
theorem State.configError_of_waitingOk (hw : s.waiting = some w) (hok : s.waitingOk = true) :
    ∀ n tg g hr, w = .acquire n tg g hr → configError n g 1 = none := by
  rintro n tg g hr rfl
  exact ((State.waitingOk_acquire hw).1 hok).2

theorem State.complete_inv (h : s.blockOk) (hw : ∀ n tg g hr, w = .acquire n tg g hr → configError n g 1 = none)
    (r : TResult) (rest : List TResult) : (State.complete { s with answers := rest, waiting := none } w r).Inv :=
  have hs : ({ s with answers := rest, waiting := none } : State).blockOk := (State.blockOk_congr rfl rfl rfl rfl rfl).2 h
  State.inv_iff.2 ⟨State.complete_blockOk hs hw r, State.waitingOk_of_none (State.complete_waiting ..)⟩

/-- A transport call keeps the invariant when the operation may wait as the state stands. -/
theorem State.callTransport_inv (h : s.blockOk) (hw : ({ s with waiting := some w } : State).waitingOk = true) :
    (s.callTransport w).Inv :=
  State.callTransport_of (State.inv_iff.2 ⟨(State.blockOk_congr rfl rfl rfl rfl rfl).2 h, hw⟩)
    (State.complete_inv h (State.configError_of_waitingOk rfl hw))

theorem resume_inv (h : s.Inv) (hw : s.waiting = some w) : (resume s w).Inv := by
  obtain ⟨hblock, hok⟩ := State.inv_iff.1 h
  exact resume_of h (State.complete_inv hblock (State.configError_of_waitingOk hw hok))

/-! ## Every step keeps the invariant -/

/-- A write of the frame as the state stands may be waited for. -/
theorem State.flush_inv (h : s.blockOk) (hm : s.mode = .ready) {f : List Byte} (hf : s.buildFrame = .ok f)
    (hw : w.isWrite) : (State.callTransport { s with frame := f } w).Inv := by
  refine State.callTransport_inv ((State.blockOk_congr rfl rfl rfl rfl rfl).2 h) ?_
  refine (State.waitingOk_write hw rfl).2 ⟨hm, ?_⟩
  exact (State.buildFrame_congr rfl rfl rfl).trans hf

theorem Effect.inv (he : Effect i s t) (h : s.Inv) (hw : s.waiting = none) : t.Inv := by
  have hblock := (State.inv_iff.1 h).1
  have ⟨ho, hp, hc, _⟩ := hblock
  have settled {u : State} (hu : u.blockOk) (hwu : u.waiting = s.waiting) : u.Inv :=
    State.inv_iff.2 ⟨hu, State.waitingOk_of_none (hwu.trans hw)⟩
  have same {u : State} (hu : u.blockOk ↔ s.blockOk) (hwu : u.waiting = s.waiting) : u.Inv := settled (hu.2 hblock) hwu
  cases he with
  | answers _ _ ht => rw [ht]; exact same (State.blockOk_congr rfl rfl rfl rfl rfl) rfl
  | reads _ _ _ _ _ _ _ ht => rw [ht]; exact same (State.blockOk_congr rfl rfl rfl rfl rfl) rfl
  | brightens _ _ _ _ ht => rw [ht]; exact same (State.blockOk_congr rfl rfl rfl rfl rfl) rfl
  | stores _ hm j hj r g b q ht =>
    rw [ht]
    exact settled (State.blockOk_of_constructed ho hp hm (State.constructed_storePixel (hc hm) ho hj r g b q)) rfl
  | rotates pos _ hm old hold ht =>
    rw [ht]
    exact settled (State.blockOk_of_constructed ho hp hm (State.constructed_rotated (hc hm) hold pos)) rfl
  | acquires n tg g hr _ _ hm herr ht =>
    rw [ht]
    exact State.callTransport_inv hblock ((State.waitingOk_acquire rfl).2 ⟨hm, herr⟩)
  | shows _ hm f hf ht => rw [ht]; exact State.flush_inv hblock hm hf (.inl rfl)
  | blanks hm w hw f hf ht =>
    rw [ht]
    exact State.flush_inv (State.blanked_blockOk hblock hm) hm hf (.inr (hw.imp And.right And.right))
  | puts _ _ ht => rw [ht]; exact same (State.blockOk_congr rfl rfl rfl rfl rfl) rfl

/-- Settles O52: each way a step can go keeps the block in order and leaves a wait that may be. -/
theorem stepKeepsInvariant : Obligations.StepKeepsInvariant := by
  intro s t h hstep
  obtain ⟨hblock, -⟩ := State.inv_iff.1 h
  rcases step_cases hstep with ⟨rest, -, rfl⟩ | ⟨w, hw, -, rfl⟩ | ⟨-, -, rfl⟩ | ⟨c, rest, e, hw, -, -, rfl⟩ |
    ⟨p, rest, i, hw, -, -, hrun⟩
  · exact State.inv_iff.2 ⟨State.assertReset_blockOk hblock.2.1, State.waitingOk_of_none rfl⟩
  · exact resume_inv h hw
  · exact h
  · exact State.inv_iff.2 ⟨(State.blockOk_congr rfl rfl rfl rfl rfl).2 hblock, State.waitingOk_of_none hw⟩
  · refine (exec_effect hrun).inv (State.inv_iff.2 ⟨?_, State.waitingOk_of_none hw⟩) hw
    exact (State.blockOk_congr rfl rfl rfl rfl rfl).2 hblock

/-- Settles O51: in UNCONFIGURED with an empty buffer and nothing waiting, the parameters are all there is to check. -/
theorem resetHasInvariant : Obligations.ResetHasInvariant := by
  have hreset (p : Params) (hp : p.legal = true) : (State.resetUnder p).Inv :=
    State.inv_iff.2 ⟨⟨rfl, hp, (nomatch ·), fun _ => rfl⟩, State.waitingOk_of_none rfl⟩
  exact ⟨hreset Config.defaultParams (by decide), hreset⟩

end Sys2Proof.Machine
end

section
/-! PROOFS. What the invariant gives of every step: no fault, no end of a run by LFE itself, an unchanged construction, and
well-formed transactions in TH (10_state.md sections 2 and 3; 70_reset_and_hazards.md R192, R205). -/

namespace Sys2Proof.Machine

variable {s t : State} {i : Instr} {w : Waiting} {r : TResult} {f : List Byte}

/-! ## No stop -/

/-- Where READY means a whole buffer, every instruction answers a next state. -/
theorem exec_next_of_inv (h : s.Inv) (i : Instr) : ∃ t, exec i s = .next t := by
  obtain ⟨-, -, hc, -⟩ := h
  rcases exec_outcomes i s with hnext | ⟨hm, hheld, -⟩
  · exact hnext
  · exact absurd (State.constructed_held (hc hm)) hheld

/-- Taking a word keeps the invariant, as nothing waits while a word is taken. -/
theorem State.record_inv (h : s.Inv) (hw : s.waiting = none) (rest : List Event) (p : PortWord) :
    (State.record { s with inbox := rest } p).Inv :=
  State.inv_iff.2 ⟨(State.blockOk_congr rfl rfl rfl rfl rfl).2 (State.inv_iff.1 h).1, State.waitingOk_of_none hw⟩

/-- From a state of the invariant a step answers a next state, or a wire word is refused. -/
theorem step_outcomes_of_inv (h : s.Inv) :
    (∃ t, step s = .next t) ∨
      ∃ p rest, s.inbox = .word p :: rest ∧ (∀ c, p ≠ .command c) ∧ step s = .refused .notAWireFrame := by
  rcases step_outcomes s with hnext | ⟨p, rest, hi, hp, -, hr⟩ | ⟨p, rest, i, hw, -, -, hrun⟩
  · exact .inl hnext
  · exact .inr ⟨p, rest, hi, hp, hr⟩
  · obtain ⟨t, ht⟩ := exec_next_of_inv (State.record_inv h hw rest p) i
    exact .inl ⟨t, hrun.trans ht⟩

/-- Settles O53: of the outcomes left none is a fault. -/
theorem invariantStatesNeverFault : Obligations.InvariantStatesNeverFault := by
  intro s f h hfault
  rcases step_outcomes_of_inv h with ⟨t, ht⟩ | ⟨p, rest, -, -, hr⟩
  · exact nomatch ht.symm.trans hfault
  · exact nomatch hr.symm.trans hfault

/-- Settles O58: a command word is never refused. -/
theorem runNeverHalts : Obligations.RunNeverHalts := by
  intro s h hcommands
  rcases step_outcomes_of_inv h with hnext | ⟨p, rest, hi, hp, -⟩
  · exact hnext
  · obtain ⟨c, hc⟩ := hcommands p rest hi
    exact absurd hc (hp c)

/-! ## The construction -/

/-- The two states have the same NUMLEDS, ORDER and HASRESET. -/
def sameConstruction (s t : State) : Prop := t.numleds = s.numleds ∧ t.order = s.order ∧ t.hasreset = s.hasreset

theorem sameConstruction_rfl : sameConstruction s s := ⟨rfl, rfl, rfl⟩

/-- SHOW and CLEAR complete with the construction they found, and TEARDOWN leaves READY. -/
theorem State.complete_construction (hw : w.isWrite)
    (hm : (s.complete w r).mode = .ready) : sameConstruction s (s.complete w r) := by
  rcases hw with rfl | rfl | rfl
  · exact sameConstruction_rfl
  · exact sameConstruction_rfl
  · exact nomatch hm

theorem State.callTransport_construction (hw : w.isWrite) :
    (s.callTransport w).mode = .ready → sameConstruction s (s.callTransport w) :=
  State.callTransport_of (P := fun u => u.mode = .ready → sameConstruction s u) (fun _ => sameConstruction_rfl)
    fun _ rest hm => State.complete_construction (s := { s with answers := rest, waiting := none }) hw hm

theorem resume_construction (hw : w.isWrite) : (resume s w).mode = .ready → sameConstruction s (resume s w) :=
  resume_of (P := fun u => u.mode = .ready → sameConstruction s u) (fun _ => sameConstruction_rfl)
    fun _ rest hm => State.complete_construction (s := { s with answers := rest, waiting := none }) hw hm

/-- What may wait in READY is a write. -/
theorem State.write_of_waitingOk (hw : s.waiting = some w) (hok : s.waitingOk = true) (hm : s.mode = .ready) :
    w.isWrite := by
  cases w with
  | acquire n tg g hr => exact nomatch ((State.waitingOk_acquire hw).1 hok).1.symm.trans hm
  | showFrame => exact .inl rfl
  | clear => exact .inr (.inl rfl)
  | teardown => exact .inr (.inr rfl)

theorem Effect.construction (he : Effect i s t) (hms : s.mode = .ready) (hmt : t.mode = .ready) : sameConstruction s t := by
  rcases he.quiet_or_call with hq | ⟨n, tg, g, hr, hm, -⟩ | ⟨v, w, f, hv, hw, -, -, rfl⟩
  · rw [hq]; exact sameConstruction_rfl
  · exact nomatch hms.symm.trans hm
  · have hsame := State.callTransport_construction (s := { v with frame := f }) hw hmt
    rcases hv with rfl | rfl <;> exact hsame

/-- Settles O45: only CONFIG, TEARDOWN and reset touch the three registers, and none of them goes from READY to READY. -/
theorem constructionIsImmutable : Obligations.ConstructionIsImmutable := by
  intro s t h hstep hms hmt
  rcases step_cases hstep with ⟨rest, -, rfl⟩ | ⟨w, hw, -, rfl⟩ | ⟨-, -, rfl⟩ | ⟨c, rest, e, -, -, -, rfl⟩ |
    ⟨p, rest, i, -, -, -, hrun⟩
  · exact nomatch hmt
  · exact resume_construction (State.write_of_waitingOk hw (State.inv_iff.1 h).2 hms) hmt
  · exact sameConstruction_rfl
  · exact sameConstruction_rfl
  · exact (exec_effect hrun).construction hms hmt

/-! ## The transactions of TH -/

/-- The frame of a constructed buffer is a transaction. -/
theorem State.isTransaction_of_buildFrame (hc : s.constructed) (hf : s.buildFrame = .ok f) : isTransaction f := by
  obtain ⟨px, ⟨hlen, hread⟩, rfl⟩ := State.buildFrame_eq_frameAround.1 hf
  obtain ⟨h1, h1024, -, hheaders⟩ := hc
  refine ⟨_, s.hasreset, px, h1, h1024, hlen, fun j hj => ?_, rfl⟩
  rw [← hread _ (by omega)]
  exact hheaders j hj

theorem allTransactions_append_write {th : List Call} (h : allTransactions th) (hf : isTransaction f) (r : TResult) :
    allTransactions (th ++ [.write f r]) := by
  intro f' r' hmem
  rcases List.mem_append.1 hmem with hold | hnew
  · exact h f' r' hold
  · cases List.mem_singleton.1 hnew
    exact hf

theorem allTransactions_append {th : List Call} (h : allTransactions th) {c : Call} (hc : ∀ f r, c ≠ .write f r) :
    allTransactions (th ++ [c]) := by
  intro f r hmem
  rcases List.mem_append.1 hmem with hold | hnew
  · exact h f r hold
  · exact absurd (List.mem_singleton.1 hnew).symm (hc f r)

/-- Completing an operation logs its frame, which for a write is to be a transaction. -/
theorem State.complete_transactions (h : allTransactions s.th)
    (hf : w.isWrite → isTransaction s.frame) (r : TResult) :
    allTransactions (s.complete w r).th := by
  cases w with
  | acquire n tg g hr => cases r <;> exact allTransactions_append h fun _ _ => Call.noConfusion
  | showFrame => exact allTransactions_append_write h (hf (.inl rfl)) r
  | clear => exact allTransactions_append_write h (hf (.inr (.inl rfl))) r
  | teardown =>
    exact allTransactions_append (allTransactions_append_write h (hf (.inr (.inr rfl))) r) fun _ _ => Call.noConfusion

theorem State.callTransport_transactions (h : allTransactions s.th) (hf : w.isWrite → isTransaction s.frame) :
    allTransactions (s.callTransport w).th :=
  State.callTransport_of (P := fun u => allTransactions u.th) h fun r rest =>
    State.complete_transactions (s := { s with answers := rest, waiting := none }) h hf r

theorem resume_transactions (h : allTransactions s.th) (hf : w.isWrite → isTransaction s.frame) :
    allTransactions (resume s w).th :=
  resume_of (P := fun u => allTransactions u.th) h fun r rest =>
    State.complete_transactions (s := { s with answers := rest, waiting := none }) h hf r

/-- The frame of a write that waits as it may is a transaction. -/
theorem State.isTransaction_of_waiting (h : s.Inv) (hw : s.waiting = some w)
    (hwrite : w.isWrite) : isTransaction s.frame := by
  obtain ⟨-, -, hc, -, hok⟩ := h
  obtain ⟨hm, hf⟩ := (State.waitingOk_write hwrite hw).1 hok
  exact State.isTransaction_of_buildFrame (hc hm) hf

theorem Effect.transactions (he : Effect i s t) (h : s.blockOk) (hth : allTransactions s.th) : allTransactions t.th := by
  rcases he.quiet_or_call with hq | ⟨n, tg, g, hr, -, rfl⟩ | ⟨v, w, f, hv, -, hm, hf, rfl⟩
  · rw [hq]; exact hth
  · exact State.callTransport_transactions hth fun hw => by simp [Waiting.isWrite] at hw
  · have hblock : v.blockOk ∧ v.mode = .ready ∧ v.th = s.th := by
      rcases hv with rfl | rfl
      · exact ⟨h, hm, rfl⟩
      · exact ⟨State.blanked_blockOk h hm, hm, rfl⟩
    obtain ⟨⟨-, -, hc, -⟩, hm, hsame⟩ := hblock
    exact State.callTransport_transactions (s := { v with frame := f }) (by rwa [← hsame] at hth) fun _ =>
      State.isTransaction_of_buildFrame (hc hm) hf

/-- Settles O55: a write enters TH only with the frame of a constructed buffer. -/
theorem everyWriteIsATransaction : Obligations.EveryWriteIsATransaction := by
  intro s t h hth hstep
  rcases step_cases hstep with ⟨rest, -, rfl⟩ | ⟨w, hw, -, rfl⟩ | ⟨-, -, rfl⟩ | ⟨c, rest, e, -, -, -, rfl⟩ |
    ⟨p, rest, i, hw, -, -, hrun⟩
  · exact fun _ _ hmem => nomatch hmem
  · exact resume_transactions hth (State.isTransaction_of_waiting h hw)
  · exact hth
  · exact hth
  · exact (exec_effect hrun).transactions (State.inv_iff.1 (State.record_inv h hw rest p)).1 hth

end Sys2Proof.Machine
end

section
/-! PROOFS. The transport held in READY (44_config_control.md R160) and the end of a run by TEARDOWN (R159, R161;
70_reset_and_hazards.md R205). -/

namespace Sys2Proof.Machine

variable {s t : State} {i : Instr} {w : Waiting} {r : TResult}

/-! ## The transport held -/

theorem transportHeld_append (l k : List Call) (b : Bool) :
    transportHeld (l ++ k) b = transportHeld k (transportHeld l b) := by
  fun_induction transportHeld l b with
  | case1 => rfl
  | case2 _ _ ih | case3 _ _ ih | case4 _ _ _ _ ih | case5 _ _ ih => exact ih

/-- The transport is held exactly in READY. -/
abbrev State.holdsWhenReady (s : State) : Prop := transportHeld s.th false = true ↔ s.mode = .ready

theorem State.complete_holds (h : s.holdsWhenReady) (w : Waiting) (r : TResult) : (s.complete w r).holdsWhenReady := by
  have hwrite : (s.endWrite r).holdsWhenReady := by
    rwa [State.holdsWhenReady, State.endWrite_th, transportHeld_append]
  cases w with
  | acquire n tg g hr =>
    cases r with
    | ok => exact iff_of_true (transportHeld_append s.th [.acquire .ok] false) rfl
    | err => exact (iff_of_eq (congrArg (· = true) (transportHeld_append s.th [.acquire .err] false))).trans h
  | showFrame | clear => exact hwrite
  | teardown =>
    have hreleased := transportHeld_append (s.endWrite r).th [.release] false
    exact iff_of_false (fun hheld => nomatch hreleased.symm.trans hheld) (nomatch ·)

theorem State.callTransport_holds (h : s.holdsWhenReady) (w : Waiting) : (s.callTransport w).holdsWhenReady :=
  State.callTransport_of (P := State.holdsWhenReady) h fun r rest =>
    State.complete_holds (s := { s with answers := rest, waiting := none }) h w r

theorem resume_holds (h : s.holdsWhenReady) (w : Waiting) : (resume s w).holdsWhenReady :=
  resume_of (P := State.holdsWhenReady) h fun r rest =>
    State.complete_holds (s := { s with answers := rest, waiting := none }) h w r

theorem Effect.holds (he : Effect i s t) (h : s.holdsWhenReady) : t.holdsWhenReady := by
  rcases he.quiet_or_call with hq | ⟨n, tg, g, hr, -, rfl⟩ | ⟨v, w, f, hv, -, -, -, rfl⟩
  · rw [hq]; exact h
  · exact State.callTransport_holds h _
  · refine State.callTransport_holds (s := { v with frame := f }) ?_ w
    rcases hv with rfl | rfl <;> exact h

/-- Settles O54: acquire and READY come together, and so do release and UNCONFIGURED. -/
theorem transportHeldExactlyWhenReady : Obligations.TransportHeldExactlyWhenReady := by
  intro s t h hstep
  rcases step_cases hstep with ⟨rest, -, rfl⟩ | ⟨w, -, -, rfl⟩ | ⟨-, -, rfl⟩ | ⟨c, rest, e, -, -, -, rfl⟩ |
    ⟨p, rest, i, -, -, -, hrun⟩
  · exact iff_of_false (nomatch ·) (nomatch ·)
  · exact resume_holds h w
  · exact h
  · exact h
  · exact (exec_effect hrun).holds h

/-! ## What a step leaves of the commands taken -/

/-- A command word is read as an instruction exactly when it is that instruction's word. -/
theorem decodeCommand_eq_ok_iff_encode {c : CmdWord} : decodeCommand c = .ok i ↔ encode i = .command c := by
  refine ⟨encode_of_decodeCommand, fun h => ?_⟩
  have hround := decodeEncodeRoundTrip i
  rwa [h] at hround

@[simp] theorem State.complete_commands (s : State) (w : Waiting) (r : TResult) : (s.complete w r).commands =
    s.commands := by
  cases w <;> cases r <;> rfl
@[simp] theorem State.callTransport_commands (s : State) (w : Waiting) : (s.callTransport w).commands = s.commands := by
  rcases s.callTransport_cases w with ⟨-, h⟩ | ⟨r, rest, -, h⟩ <;> simp [h]
@[simp] theorem resume_commands (s : State) (w : Waiting) : (resume s w).commands = s.commands := by
  rcases resume_cases s w with ⟨-, h⟩ | ⟨r, rest, -, h⟩ <;> simp [h]

/-- No instruction touches the commands taken, the words to come or the parameters. -/
theorem Effect.outside (he : Effect i s t) : t.commands = s.commands ∧ t.inbox = s.inbox ∧ t.params = s.params := by
  rcases he.quiet_or_call with hq | ⟨n, tg, g, hr, -, rfl⟩ | ⟨v, w, f, hv, -, -, -, rfl⟩
  · rw [hq]; exact ⟨rfl, rfl, rfl⟩
  · simp
  · rcases hv with rfl | rfl <;> simp [State.blanked]

/-! ## TEARDOWN as the last command -/

/-- The last command of a run that a word has just joined is that word. -/
theorem lastIsTeardown_iff {c : CmdWord} {cs : List CmdWord} (h : t.commands = cs ++ [c]) :
    t.lastIsTeardown ↔ encode .teardown = .command c := by
  rw [State.lastIsTeardown, h, List.getLast?_concat, Option.map_some, Option.some_inj, eq_comm]

/-- A TEARDOWN that is answered has unconfigured, and one that is not waits. -/
theorem State.callTransport_teardown (s : State) :
    (s.callTransport .teardown).waiting = some .teardown ∨
      (s.callTransport .teardown).waiting = none ∧ (s.callTransport .teardown).mode = .unconfigured :=
  State.callTransport_of (P := fun u => u.waiting = some .teardown ∨ u.waiting = none ∧ u.mode = .unconfigured) (.inl rfl)
    fun _ _ => .inr ⟨rfl, rfl⟩

theorem exec_teardown_next (hw : s.waiting = none) (h : exec .teardown s = .next t) :
    t.waiting = some .teardown ∨ t.waiting = none ∧ t.mode = .unconfigured := by
  rcases s.mode_cases with hm | hm
  · cases (exec_teardown_unconfigured hm).symm.trans h
    exact .inr ⟨hw, hm⟩
  · obtain ⟨f, -, ht⟩ := State.flush_eq_next.1 ((exec_teardown_ready hm).symm.trans h)
    rw [ht]
    exact State.callTransport_teardown _

/-- A frame at the wire port changes neither what waits nor MODE. -/
theorem exec_wireFrame {first : Bool} {p : PortWord} (hp : ∀ c, p ≠ .command c)
    (hd : decode first p = .ok i) (h : exec i s = .next t) : t.waiting = s.waiting ∧ t.mode = s.mode := by
  have henc := decodedWordIsItsEncoding first p i hd
  cases i with
  | startFrame | pixelFrame q x y z | resetFrame | endPadByte => cases h; exact ⟨rfl, rfl⟩
  | _ => exact absurd henc.symm (hp _)

/-- The wait of the last TEARDOWN ends in UNCONFIGURED. -/
theorem resume_teardownEnds (h : s.teardownEnds) (hw : s.waiting = some w) : (resume s w).teardownEnds := by
  intro hlast
  rw [State.lastIsTeardown, resume_commands] at hlast
  rcases h hlast with hwt | ⟨hnone, -⟩
  · cases hw.symm.trans hwt
    exact resume_of (P := fun u => u.waiting = some .teardown ∨ u.waiting = none ∧ u.mode = .unconfigured) (.inl hw)
      fun _ _ => .inr ⟨rfl, rfl⟩
  · exact nomatch hw.symm.trans hnone

/-- An instruction run from a word ends a run with TEARDOWN only as TEARDOWN does. -/
theorem exec_teardownEnds {p : PortWord} {rest : List Event} (h : s.teardownEnds) (hw : s.waiting = none)
    (hd : decode s.frame.isEmpty p = .ok i) (hrun : exec i (State.record { s with inbox := rest } p) = .next t) :
    t.teardownEnds := by
  intro hlast
  obtain ⟨hcommands, -, -⟩ := (exec_effect hrun).outside
  by_cases hp : ∃ c, p = .command c
  · obtain ⟨c, rfl⟩ := hp
    have henc := (lastIsTeardown_iff (cs := s.commands) hcommands).1 hlast
    cases (decodeCommand_eq_ok_iff_encode.2 henc).symm.trans hd
    exact exec_teardown_next (s := State.record { s with inbox := rest } (.command c)) hw hrun
  · have hp (c : CmdWord) : p ≠ .command c := fun hc => hp ⟨c, hc⟩
    have hsame : t.commands = s.commands := by
      rw [hcommands]
      cases p with
      | command c => exact absurd rfl (hp c)
      | frame _ | pad _ => exact List.append_nil _
    obtain ⟨hwt, hmt⟩ := exec_wireFrame hp hd hrun
    rw [State.lastIsTeardown, hsame] at hlast
    rcases h hlast with hwaits | ⟨-, hm⟩
    · exact nomatch hw.symm.trans hwaits
    · exact .inr ⟨hwt.trans hw, hmt.trans hm⟩

/-- Settles O57: the last command stays the last while it waits, and a new one takes its place. -/
theorem teardownThatRespondedUnconfigures : Obligations.TeardownThatRespondedUnconfigures := by
  intro s t h hstep
  rcases step_cases hstep with ⟨rest, -, rfl⟩ | ⟨w, hw, -, rfl⟩ | ⟨-, -, rfl⟩ | ⟨c, rest, e, -, -, hd, rfl⟩ |
    ⟨p, rest, i, hw, -, hd, hrun⟩
  · exact fun hlast => nomatch hlast
  · exact resume_teardownEnds h hw
  · exact h
  · intro hlast
    have henc := (lastIsTeardown_iff (cs := s.commands) (c := c) rfl).1 hlast
    exact nomatch (decodeCommand_eq_ok_iff_encode.2 henc).symm.trans hd
  · exact exec_teardownEnds h hw hd hrun

/-- A TEARDOWN in READY with an answer there completes with it. -/
theorem exec_teardown_answered (hm : s.mode = .ready) {rest : List TResult} (ha : s.answers = r :: rest) :
    ∃ f, exec .teardown s =
      .next (State.complete { s.blanked with frame := f, answers := rest, waiting := none } .teardown r) := by
  obtain ⟨f, -, hflush⟩ := s.blanked_flush .teardown
  exact ⟨f, (exec_teardown_ready hm).trans (hflush.trans
    (congrArg _ (State.callTransport_cons (s := { s.blanked with frame := f }) .teardown ha)))⟩

/-- Settles O56: the TEARDOWN taken flushes the blanked buffer and completes with the answer there. -/
theorem teardownEndsRunOrderly : Obligations.TeardownEndsRunOrderly := by
  intro s c evs r rest hm hw _ henc hi hover ha
  have hd : decode s.frame.isEmpty (.command c) = .ok .teardown := decodeCommand_eq_ok_iff_encode.2 henc
  obtain ⟨f, hrun⟩ := exec_teardown_answered (s := State.record { s with inbox := evs } (.command c)) hm ha
  refine ⟨_, (step_decoded hw hi hd).trans hrun, ?_, (lastIsTeardown_iff (cs := s.commands) ?_).2 henc, ?_, ?_, ?_, ?_⟩
  · rw [State.runOver, State.complete_inbox]
    exact hover
  · rw [State.complete_commands]
    rfl
  · rw [State.complete_waiting]
  · rw [State.complete_responses, List.getLast?_concat]
    cases r
    · exact .inl rfl
    · exact .inr rfl
  · rfl
  · obtain ⟨-, hth, -⟩ := State.complete_teardown
      { (State.record { s with inbox := evs } (.command c)).blanked with frame := f, answers := rest, waiting := none } r
    rw [hth, List.getLast?_append]
    rfl

end Sys2Proof.Machine
end

section
/-! PROOFS. What each effect leaves alone: the response a command owes, precise errors, commands that make no transport call,
readers of the buffer, repeated writes (20_memory.md section 3; 60_exceptions.md R171 to R176; 70_reset_and_hazards.md
R205). -/

namespace Sys2Proof.Machine

variable {s t : State} {i : Instr} {w : Waiting} {r : TResult}

/-! ## One response per command -/

/-- A transport call is answered with the transport's status, or waits without a response. -/
theorem State.callTransport_answers (s : State) (w : Waiting) :
    ((s.callTransport w).waiting = none ∧
        ∃ r : TResult, (s.callTransport w).responses = s.responses ++ [statusWord r.status]) ∨
      ((s.callTransport w).waiting = some w ∧ (s.callTransport w).responses = s.responses) := by
  rcases s.callTransport_cases w with ⟨-, he⟩ | ⟨r, rest, -, he⟩ <;> rw [he]
  · exact .inr ⟨rfl, rfl⟩
  · exact .inl ⟨State.complete_waiting .., r, State.complete_responses ..⟩

/-- One response word and nothing waiting, or a wait without a response. -/
abbrev respondsOrWaits (s t : State) : Prop :=
  (t.waiting = none ∧ ∃ rsp, t.responses = s.responses ++ [rsp]) ∨ (t.waiting ≠ none ∧ t.responses = s.responses)

theorem State.callTransport_respondsOrWaits (s : State) (w : Waiting) : respondsOrWaits s (s.callTransport w) := by
  rcases s.callTransport_answers w with ⟨hw, r, hr⟩ | ⟨hw, hr⟩
  · exact .inl ⟨hw, _, hr⟩
  · exact .inr ⟨by simp [hw], hr⟩

/-- Every effect but the putting of a wire frame answers once. -/
theorem Effect.responds_or_waits (he : Effect i s t) (hw : s.waiting = none) {c : CmdWord} (hc : encode i = .command c) :
    respondsOrWaits s t := by
  cases he with
  | answers st _ ht => rw [ht]; exact .inl ⟨hw, _, rfl⟩
  | reads _ _ _ _ _ _ _ ht => rw [ht]; exact .inl ⟨hw, _, rfl⟩
  | brightens _ _ _ _ ht => rw [ht]; exact .inl ⟨hw, _, rfl⟩
  | stores _ _ _ _ _ _ _ _ ht => rw [ht]; exact .inl ⟨hw, _, rfl⟩
  | rotates _ _ _ _ _ ht => rw [ht]; exact .inl ⟨hw, _, rfl⟩
  | acquires _ _ _ _ _ _ _ _ ht => rw [ht]; exact State.callTransport_respondsOrWaits s _
  | shows _ _ f _ ht => rw [ht]; exact State.callTransport_respondsOrWaits { s with frame := f } _
  | blanks _ w _ f _ ht => rw [ht]; exact State.callTransport_respondsOrWaits { s.blanked with frame := f } w
  | puts hi _ _ => rcases hi with rfl | ⟨q, x, y, z, rfl⟩ | rfl | rfl <;> exact nomatch hc

/-- Settles O13: an illegal word is answered at once, a legal one as its instruction answers. -/
theorem oneResponsePerCommand : Obligations.OneResponsePerCommand := by
  intro s t c rest hw hi hstep
  cases hd : decodeCommand c with
  | error e =>
    cases (step_illegal hw hi hd).symm.trans hstep
    exact ⟨rfl, rfl, .inl ⟨hw, _, rfl⟩⟩
  | ok i =>
    have he := exec_effect ((step_decoded hw hi hd).symm.trans hstep)
    obtain ⟨hcommands, hinbox, -⟩ := he.outside
    exact ⟨hinbox, hcommands, he.responds_or_waits hw (decodeCommand_eq_ok_iff_encode.1 hd)⟩

/-! ## Statuses -/

/-- No two statuses share a code (R171). -/
theorem Status.code_injective : Function.Injective Status.code := by
  intro a b h
  cases a <;> cases b <;> simp [Status.code] at h ⊢

/-- The status can be told from a response that has it alone (R66). -/
theorem statusWord_injective : Function.Injective statusWord := fun a b h => by
  have := congrArg (field · 60 4) h
  exact Status.code_injective
    ((responseWord_status a 0 0 0 0 0).symm.trans (this.trans (responseWord_status b 0 0 0 0 0)))

theorem responseWord_ne_transport {st : Status} (h : st ≠ .transport) (valid : BitVec 1) (r g b : Byte) (p : BitVec 12) :
    field (responseWord st valid r g b p) 60 4 ≠ Status.transport.code := by
  rw [responseWord_status]
  exact fun hc => h (Status.code_injective hc)

/-- The status that was added, when the responses are those before and one status. -/
theorem status_of_append {l : List CmdWord} {a b : Status} (h : l ++ [statusWord a] = l ++ [statusWord b]) : b = a :=
  statusWord_injective (List.singleton_inj.1 (List.append_cancel_left h)).symm

theorem TResult.status_cases (r : TResult) : r.status = .ok ∨ r.status = .transport := by
  cases r
  · exact .inl rfl
  · exact .inr rfl

/-- A transport call answers no status but OK and TRANSPORT. -/
theorem State.callTransport_status {st : Status} (h : (s.callTransport w).responses = s.responses ++ [statusWord st]) :
    st = .ok ∨ st = .transport := by
  rcases s.callTransport_answers w with ⟨-, r, hr⟩ | ⟨-, hr⟩
  · rw [status_of_append (hr.symm.trans h)]
    exact r.status_cases
  · exact absurd (hr.symm.trans h) (by simp)

/-- Settles O43: an effect with another status has added its response and nothing more. -/
theorem errorsArePrecise : Obligations.ErrorsArePrecise := by
  intro i s t st hok htransport h hresp
  have transported {u : State} (hu : u.responses = s.responses) (w : Waiting) (ht : t = u.callTransport w) : False := by
    rw [ht, ← hu] at hresp
    exact (State.callTransport_status hresp).elim hok htransport
  cases exec_effect h with
  | answers _ _ ht => rw [ht]; rfl
  | reads _ _ _ _ _ _ _ ht => rw [ht]; rfl
  | brightens _ _ _ _ ht => rw [ht] at hresp; exact absurd (status_of_append hresp) hok
  | stores _ _ _ _ _ _ _ _ ht => rw [ht] at hresp; exact absurd (status_of_append hresp) hok
  | rotates _ _ _ _ _ ht => rw [ht] at hresp; exact absurd (status_of_append hresp) hok
  | acquires _ _ _ _ _ _ _ _ ht => exact (transported rfl _ ht).elim
  | shows _ _ f _ ht => exact (transported (u := { s with frame := f }) rfl _ ht).elim
  | blanks _ w _ f _ ht => exact (transported (u := { s.blanked with frame := f }) rfl w ht).elim
  | puts _ _ ht => rw [ht] at hresp; exact absurd hresp (by simp)

/-- Settles O44: the effects these six can have make one response and reach neither the transport nor MODE. -/
theorem pixelCommandsMakeNoTransportCall : Obligations.PixelCommandsMakeNoTransportCall := by
  intro i s t hi h
  have hok : Status.ok ≠ .transport := by decide
  cases exec_effect h with
  | answers st hst ht => rw [ht]; exact ⟨rfl, rfl, rfl, rfl, rfl, _, rfl, responseWord_ne_transport hst.2 0 0 0 0 0⟩
  | reads _ _ _ r g b p ht => rw [ht]; exact ⟨rfl, rfl, rfl, rfl, rfl, _, rfl, responseWord_ne_transport hok 1 r g b p⟩
  | brightens _ _ _ _ ht => rw [ht]; exact ⟨rfl, rfl, rfl, rfl, rfl, _, rfl, responseWord_ne_transport hok 0 0 0 0 0⟩
  | stores _ _ _ _ _ _ _ _ ht => rw [ht]; exact ⟨rfl, rfl, rfl, rfl, rfl, _, rfl, responseWord_ne_transport hok 0 0 0 0 0⟩
  | rotates _ _ _ _ _ ht => rw [ht]; exact ⟨rfl, rfl, rfl, rfl, rfl, _, rfl, responseWord_ne_transport hok 0 0 0 0 0⟩
  | acquires _ _ _ _ _ hconfig => simp [hconfig] at hi
  | shows hshow => simp [hshow] at hi
  | blanks _ _ hw => rcases hw with ⟨rfl, -⟩ | ⟨rfl, -⟩ <;> simp at hi
  | puts hput => rcases hput with rfl | ⟨q, x, y, z, rfl⟩ | rfl | rfl <;> simp at hi

/-! ## Readers and parameters -/

theorem State.callTransport_showFrame_buf (s : State) : (s.callTransport .showFrame).buf = s.buf :=
  State.callTransport_of (P := fun u => u.buf = s.buf) rfl fun _ _ => rfl

/-- Settles O46: none of these instructions has an effect that writes the buffer. -/
theorem readersLeaveBuffer : Obligations.ReadersLeaveBuffer := by
  intro i s t hi h a
  refine congrArg (Memory.read · a) ?_
  cases exec_effect h with
  | answers _ _ ht => rw [ht]; rfl
  | reads _ _ _ _ _ _ _ ht => rw [ht]; rfl
  | brightens _ _ _ _ ht => rw [ht]; rfl
  | stores hwrite => rcases hwrite with ⟨_, _, _, _, rfl⟩ | ⟨_, _, _, _, _, rfl⟩ | ⟨_, _, _, rfl⟩ <;> simp at hi
  | rotates _ hrot => simp [hrot] at hi
  | acquires _ _ _ _ _ hconfig => simp [hconfig] at hi
  | shows _ _ f _ ht => rw [ht]; exact State.callTransport_showFrame_buf { s with frame := f }
  | blanks _ _ hw => rcases hw with ⟨rfl, -⟩ | ⟨rfl, -⟩ <;> simp at hi
  | puts _ _ ht => rw [ht]

theorem resume_params (s : State) (w : Waiting) : (resume s w).params = s.params :=
  resume_of (P := fun u => u.params = s.params) rfl fun _ _ => State.complete_params ..

/-- Settles O48: neither reset nor completing an operation nor an instruction writes them. -/
theorem parametersNeverChange : Obligations.ParametersNeverChange := by
  intro s t hstep
  rcases step_cases hstep with ⟨rest, -, rfl⟩ | ⟨w, -, -, rfl⟩ | ⟨-, -, rfl⟩ | ⟨c, rest, e, -, -, -, rfl⟩ |
    ⟨p, rest, i, -, -, -, hrun⟩
  · rfl
  · exact resume_params s w
  · rfl
  · rfl
  · obtain ⟨-, -, hparams⟩ := (exec_effect hrun).outside
    exact hparams

/-! ## The same write twice -/

/-- The cells of a byte list laid out that stand below its place or above its end: none. -/
theorem Memory.filter_ofBytes_outside {a : Nat} {bs : List Byte} {p : Host.Cell → Bool}
    (hp : ∀ c : Host.Cell, p c = true → c.1 < a ∨ a + bs.length ≤ c.1) : (Memory.ofBytes a bs).filter p = [] := by
  refine List.filter_eq_nil_iff.2 fun c hc hpc => ?_
  have := Memory.mem_ofBytes hc
  have := hp c hpc
  omega

/-- A byte list written where it was just written changes nothing. -/
theorem Memory.write_write (m : Memory) (a : Nat) (bs : List Byte) :
    Memory.write (Memory.write m a bs) a bs = Memory.write m a bs := by
  have hlow : (Memory.write m a bs).filter (fun c => decide (c.1 < a)) = m.filter fun c => decide (c.1 < a) := by
    have hhigh : (m.filter fun c => decide (c.1 < a) && decide (a + bs.length ≤ c.1)) = [] :=
      List.filter_eq_nil_iff.2 fun c _ => by simp; omega
    rw [Memory.write, List.filter_append, List.filter_append, List.filter_filter, List.filter_filter, hhigh,
      Memory.filter_ofBytes_outside (by simp +contextual)]
    simp
  have hhigh : (Memory.write m a bs).filter (fun c => decide (a + bs.length ≤ c.1)) =
      m.filter fun c => decide (a + bs.length ≤ c.1) := by
    have hlow : (m.filter fun c => decide (a + bs.length ≤ c.1) && decide (c.1 < a)) = [] :=
      List.filter_eq_nil_iff.2 fun c _ => by simp; omega
    rw [Memory.write, List.filter_append, List.filter_append, List.filter_filter, List.filter_filter, hlow,
      Memory.filter_ofBytes_outside (by simp +contextual)]
    simp
  rw [Memory.write, hlow, hhigh]
  rfl

/-- The common pixel write, done again, changes the responses alone. -/
theorem whenReady_setPixel_again {idx : BitVec 16} {red green blue : Byte} {pct : BitVec 8}
    (h : whenReady s (setPixel idx red green blue pct) = .next t) :
    ∃ u, whenReady t (setPixel idx red green blue pct) = .next u ∧ u = { t with responses := u.responses } := by
  rcases whenReady_setPixel_cases h with ⟨hm, ht⟩ | ⟨hm, hi, ht⟩ | ⟨j, hm, hj, ht⟩
  · exact ⟨t.respond .notready, whenReady_unconfigured (by rw [ht]; exact hm) _, rfl⟩
  · refine ⟨t.respond .ok, ?_, rfl⟩
    rw [whenReady_ready (by rw [ht]; exact hm), setPixel_eq, ht, State.respond_numleds, hi]
  · refine ⟨t.respond .ok, ?_, rfl⟩
    rw [whenReady_ready (by rw [ht]; exact hm), setPixel_eq, ht, State.respond_numleds, hj]
    simp only [State.respond_buf, State.respond_order, State.respond_gb, Memory.write_write]
    rfl

/-- Settles O23: all three are the common pixel write. -/
theorem pixelWritesAreIdempotent : Obligations.PixelWritesAreIdempotent := by
  rintro i s t (⟨idx, r, g, b, rfl⟩ | ⟨idx, r, g, b, pct, rfl⟩ | ⟨idx, c, pct, rfl⟩) h
  · exact whenReady_setPixel_again h
  · exact whenReady_setPixel_again h
  · exact whenReady_setPixel_again h

end Sys2Proof.Machine
end

section
/-! PROOFS. Transport calls that are not answered or answered later (43_frame_emit.md R136; 70_reset_and_hazards.md R197),
and tag codes (30_encoding.md R73). -/

namespace Sys2Proof.Machine

variable {s t u : State} {i : Instr} {w : Waiting} {r : TResult}

/-! ## Transport calls -/

/-- An unanswered flush waits with its frame and changes nothing else. -/
theorem State.flush_unanswered {f : List Byte} (hf : s.buildFrame = .ok f) (ha : s.answers = []) (w : Waiting) :
    s.flush w = .next { s with waiting := some w, frame := f } :=
  State.flush_eq_next.2 ⟨f, hf, (State.callTransport_nil (s := { s with frame := f }) w ha).symm⟩

theorem State.blanked_flush_unanswered (ha : s.answers = []) (w : Waiting) :
    ∃ t, s.blanked.flush w = .next t ∧ t = { s with waiting := some w, frame := t.frame, buf := t.buf } := by
  obtain ⟨f, hf, -⟩ := s.blanked_flush w
  exact ⟨_, State.flush_unanswered hf ha w, rfl⟩

/-- Settles O31: each of the four ends in a transport call, which finds no answer. -/
theorem unansweredCallWaits : Obligations.UnansweredCallWaits := by
  intro s ha
  refine ⟨fun hm hheld => ?_, fun hm => ⟨?_, ?_⟩, fun hm n tg g h hn1 hn2 hg => ?_⟩
  · obtain ⟨px, hpx⟩ := State.held_exists_holdsBytes hheld
    have hf := State.buildFrame_eq_frameAround.2 ⟨px, hpx, rfl⟩
    exact ⟨_, (exec_showFrame_ready hm).trans (State.flush_unanswered hf ha _), rfl⟩
  · rw [exec_clear_ready hm]
    exact State.blanked_flush_unanswered ha _
  · rw [exec_teardown_ready hm]
    exact State.blanked_flush_unanswered ha _
  · rw [exec_config_legal hm hn1 hn2 hg, State.callTransport_nil _ ha]

/-- An instruction that comes to wait is one transport call, made in a state that does not depend on the answers to come. -/
theorem exec_callTransport (hw : s.waiting = none) (h : exec i { s with answers := [] } = .next u)
    (hu : u.waiting ≠ none) :
    ∃ (v : State) (w : Waiting), v.inbox = s.inbox ∧ ∀ as, exec i { s with answers := as } =
      .next (State.callTransport { v with answers := as } w) := by
  have settled (hsame : u.waiting = s.waiting) : False := hu (hsame.trans hw)
  cases exec_effect h with
  | answers _ _ ht => exact (settled (by rw [ht]; rfl)).elim
  | reads _ _ _ _ _ _ _ ht => exact (settled (by rw [ht]; rfl)).elim
  | brightens _ _ _ _ ht => exact (settled (by rw [ht]; rfl)).elim
  | stores _ _ _ _ _ _ _ _ ht => exact (settled (by rw [ht]; rfl)).elim
  | rotates _ _ _ _ _ ht => exact (settled (by rw [ht]; rfl)).elim
  | acquires n tg g hr k hi hm _ _ =>
    subst hi
    cases he : configError n g k with
    | some e =>
      cases (exec_config_rejected (s := { s with answers := [] }) hm he).symm.trans h
      exact (settled rfl).elim
    | none => exact ⟨s, .acquire n tg g hr, rfl, fun as => by rw [exec_config, show _ = _ from hm, he]⟩
  | shows hi hm f hf _ =>
    subst hi
    refine ⟨{ s with frame := f }, .showFrame, rfl, fun as => ?_⟩
    exact (exec_showFrame_ready (s := { s with answers := as }) hm).trans (State.flush_eq_next.2 ⟨f, hf, rfl⟩)
  | blanks hm w hi f hf _ =>
    refine ⟨{ s.blanked with frame := f }, w, rfl, fun as => ?_⟩
    rcases hi with ⟨rfl, rfl⟩ | ⟨rfl, rfl⟩
    · exact (exec_clear_ready (s := { s with answers := as }) hm).trans (State.flush_eq_next.2 ⟨f, hf, rfl⟩)
    · exact (exec_teardown_ready (s := { s with answers := as }) hm).trans (State.flush_eq_next.2 ⟨f, hf, rfl⟩)
  | puts _ _ ht => exact (settled (by rw [ht])).elim

/-- Settles O32: the call waits in the state in which, with an answer there, it completes. -/
theorem answerLaterIsAnswerAtOnce : Obligations.AnswerLaterIsAnswerAtOnce := by
  intro i s u r rest hw hi h hu
  obtain ⟨v, w, hv, hrun⟩ := exec_callTransport hw h hu
  have hwait : u = { v with answers := [], waiting := some w } :=
    Host.Outcome.next.inj (h.symm.trans ((hrun []).trans (congrArg _ (State.callTransport_nil w rfl))))
  have hinbox : u.inbox = s.inbox := by rw [hwait, ← hv]
  have hwu : u.waiting = some w := by rw [hwait]
  rw [step_waiting (s := { u with answers := r :: rest }) hwu (by rwa [hinbox]), resume_cons rfl, hrun,
    State.callTransport_cons w rfl, hwait]

/-! ## Tag codes -/

theorem tagOfCode_of_ge {tg : BitVec 8} : 6 ≤ tg.toNat → tagOfCode tg = tagOfCode 0 := by revert tg; decide

theorem orderOfCode_of_ge (m : OrderMap) {tg : BitVec 8} (h : 6 ≤ tg.toNat) : orderOfCode m tg = orderOfCode m 0 :=
  congrArg (orderOfTag m) (tagOfCode_of_ge h)

/-- The tag is read in construction alone. -/
theorem State.complete_acquire_of_ge (s : State) (n : BitVec 16) {tg : BitVec 8} (g : BitVec 8) (hr : BitVec 1)
    (h : 6 ≤ tg.toNat) (r : TResult) : s.complete (.acquire n tg g hr) r = s.complete (.acquire n 0 g hr) r := by
  cases r with
  | err => rfl
  | ok =>
    unfold State.complete State.construct
    simp only [orderOfCode_of_ge _ h]

/-- Settles O39: an answered CONFIG reads its tag only when it completes. -/
theorem unrecognisedTagIsRgb : Obligations.UnrecognisedTagIsRgb := by
  refine ⟨fun m => ⟨rfl, rfl, rfl, rfl, rfl, rfl⟩, fun s n tg g h k htg => ⟨fun ha => ?_, fun r => ?_⟩⟩
  · obtain ⟨r, rest, ha⟩ := List.exists_cons_of_ne_nil ha
    rw [exec_config, exec_config, State.callTransport_cons _ ha, State.callTransport_cons _ ha,
      State.complete_acquire_of_ge _ n g h htg]
  · exact State.complete_acquire_of_ge s n g h htg r

end Sys2Proof.Machine
end

section
/-! PROOFS. The observation, which nothing reads: an instruction under another observation does the same and adds the same
at the end of it (00_scope.md R10; 10_state.md R32; log 4). -/

namespace Sys2Proof.Machine

variable {s t : State} {k : State → Host.Outcome State Fault Refusal}

/-! ## Another observation -/

/-- The state with another observation. -/
def State.observing (s : State) (o : Observed) : State := { s with toObserved := o }

@[simp] theorem State.observing_numleds (s : State) (o : Observed) : (s.observing o).numleds = s.numleds := rfl
@[simp] theorem State.observing_gb (s : State) (o : Observed) : (s.observing o).gb = s.gb := rfl
@[simp] theorem State.observing_loadPixel (s : State) (o : Observed) (j : Nat) : (s.observing o).loadPixel j =
    s.loadPixel j := rfl
@[simp] theorem State.observing_memRead (s : State) (o : Observed) (a n : Nat) : (s.observing o).memRead a n =
    s.memRead a n := rfl
@[simp] theorem State.observing_bufLen (s : State) (o : Observed) : (s.observing o).bufLen = s.bufLen := rfl

/-- The observation with responses and transport calls added at its end. -/
def Observed.add (o : Observed) (rs : List CmdWord) (cs : List Call) : Observed :=
  ⟨o.commands, o.responses ++ rs, o.th ++ cs⟩

theorem Observed.add_nil (o : Observed) : o.add [] [] = o := by simp [Observed.add]

/-- The run k of s ends in t, and under every other observation it ends in t too, but for what it adds to that one. -/
def blindTo (k : State → Host.Outcome State Fault Refusal) (s t : State) : Prop :=
  ∃ rs cs, ∀ o, k (s.observing o) = .next (t.observing (o.add rs cs))

/-- A run that does not see the observation has added to its own what it adds to every one. -/
theorem toObserved_of_blindTo {rs : List CmdWord} {cs : List Call}
    (hk : ∀ o, k (s.observing o) = .next (t.observing (o.add rs cs))) (h : k s = .next t) :
    t.toObserved = s.toObserved.add rs cs :=
  congrArg State.toObserved (Host.Outcome.next.inj (h.symm.trans (hk s.toObserved)))

/-! ## The shared operations -/

/-- A run that gives one response word. -/
theorem blindTo_give {c : CmdWord} (h : ∀ o, k (s.observing o) = .next (State.give (t.observing o) c)) :
    blindTo k s (t.give c) :=
  ⟨[c], [], fun o => (h o).trans (by rw [Observed.add, List.append_nil]; rfl)⟩

theorem blindTo_whenReady (h : whenReady s k = .next t) (hk : k s = .next t → blindTo k s t) :
    blindTo (whenReady · k) s t := by
  rcases s.mode_cases with hm | hm
  · cases (whenReady_unconfigured hm k).symm.trans h
    exact blindTo_give fun o => whenReady_unconfigured (s := s.observing o) hm k
  · obtain ⟨rs, cs, hrun⟩ := hk ((whenReady_ready hm k).symm.trans h)
    exact ⟨rs, cs, fun o => (whenReady_ready (s := s.observing o) hm k).trans (hrun o)⟩

theorem blindTo_setPixel {idx : BitVec 16} {r g b : Byte} {pct : BitVec 8} (h : setPixel idx r g b pct s = .next t) :
    blindTo (setPixel idx r g b pct) s t := by
  rw [setPixel_eq] at h
  cases hi : pixelIndex idx s.numleds with
  | none =>
    rw [hi] at h
    cases h
    exact blindTo_give fun o => by rw [setPixel_eq, State.observing_numleds, hi]; rfl
  | some j =>
    rw [hi] at h
    cases h
    exact blindTo_give fun o => by rw [setPixel_eq, State.observing_numleds, hi]; rfl

/-- What completing an operation adds is the same under every observation: its calls and one status. -/
theorem State.complete_observing (s : State) (w : Waiting) (r : TResult) :
    ∃ rs cs, ∀ o, (s.observing o).complete w r = (s.complete w r).observing (o.add rs cs) := by
  cases w with
  | acquire n tg g hr => cases r <;> exact ⟨[_], [_], fun o => rfl⟩
  | showFrame => exact ⟨[statusWord r.status], [.write s.frame r], fun o => rfl⟩
  | clear => exact ⟨[statusWord r.status], [.write s.frame r], fun o => rfl⟩
  | teardown =>
    refine ⟨[statusWord r.status], [.write s.frame r] ++ [.release], fun o => ?_⟩
    rw [Observed.add, ← List.append_assoc]
    rfl

theorem State.callTransport_observing (s : State) (w : Waiting) :
    ∃ rs cs, ∀ o, (s.observing o).callTransport w = (s.callTransport w).observing (o.add rs cs) := by
  rcases s.callTransport_cases w with ⟨ha, he⟩ | ⟨r, rest, ha, he⟩
  · refine ⟨[], [], fun o => ?_⟩
    rw [State.callTransport_nil (s := s.observing o) w ha, he, Observed.add_nil]
    rfl
  · obtain ⟨rs, cs, hrun⟩ := State.complete_observing { s with answers := rest, waiting := none } w r
    exact ⟨rs, cs, fun o => (State.callTransport_cons (s := s.observing o) w ha).trans ((hrun o).trans (by rw [he]))⟩

theorem blindTo_flush {w : Waiting} (h : s.flush w = .next t) : blindTo (State.flush · w) s t := by
  obtain ⟨f, hf, rfl⟩ := State.flush_eq_next.1 h
  obtain ⟨rs, cs, hrun⟩ := State.callTransport_observing { s with frame := f } w
  exact ⟨rs, cs, fun o => State.flush_eq_next.2 ⟨f, hf, (hrun o).symm⟩⟩

/-! ## The instructions -/

theorem blindTo_get {idx : BitVec 16} (h : exec (.get idx) s = .next t) : blindTo (exec (.get idx)) s t := by
  rcases s.mode_cases with hm | hm
  · cases (exec_get_unconfigured hm idx).symm.trans h
    exact blindTo_give fun o => exec_get_unconfigured (s := s.observing o) hm idx
  cases hi : pixelIndex idx s.numleds with
  | none =>
    have hi := pixelIndex_eq_none.1 hi
    cases (exec_get_outside hm hi).symm.trans h
    exact blindTo_give fun o => exec_get_outside (s := s.observing o) hm hi
  | some j =>
    obtain ⟨hsint, hlt⟩ := pixelIndex_eq_some.1 hi
    by_cases hgb : s.gb = 0
    · cases (exec_get_divzero hm hsint hlt hgb).symm.trans h
      exact blindTo_give fun o => exec_get_divzero (s := s.observing o) hm hsint hlt hgb
    · simp only [exec_get_ready hm, hi, if_neg hgb] at h
      cases hp : s.loadPixel j with
      | error f => rw [hp] at h; cases h
      | ok px =>
        rw [hp] at h
        cases h
        exact blindTo_give fun o => by
          simp only [exec_get_ready (s := s.observing o) hm, State.observing_numleds, hi, State.observing_gb, if_neg hgb,
            State.observing_loadPixel, hp]

theorem blindTo_rot {pos : BitVec 16} (h : exec (.rot pos) s = .next t) : blindTo (exec (.rot pos)) s t := by
  rcases exec_rot_next h with ⟨hm, rfl⟩ | ⟨old, hm, hold, rfl⟩
  · exact blindTo_give fun o => exec_rot_unconfigured (s := s.observing o) hm pos
  · exact blindTo_give fun o => by
      rw [exec_rot_ready (s := s.observing o) hm, State.observing_bufLen, State.observing_memRead, hold]; rfl

theorem blindTo_setgb {val : BitVec 8} (h : exec (.setgb val) s = .next t) : blindTo (exec (.setgb val)) s t := by
  rcases s.mode_cases with hm | hm
  · cases (exec_setgb_unconfigured hm val).symm.trans h
    exact blindTo_give fun o => exec_setgb_unconfigured (s := s.observing o) hm val
  have hrun (o : Observed) := exec_setgb_ready (s := s.observing o) hm val
  rw [exec_setgb_ready hm] at h
  by_cases hv : 31 < val.toNat
  · rw [if_pos hv] at h
    cases h
    exact blindTo_give fun o => (hrun o).trans (if_pos hv)
  · rw [if_neg hv] at h
    cases h
    exact blindTo_give fun o => (hrun o).trans (if_neg hv)

theorem blindTo_config {n : BitVec 16} {tg g : BitVec 8} {hr k : BitVec 1} (h : exec (.config n tg g hr k) s = .next t) :
    blindTo (exec (.config n tg g hr k)) s t := by
  rcases s.mode_cases with hm | hm
  · cases he : configError n g k with
    | some e =>
      cases (exec_config_rejected hm he).symm.trans h
      exact blindTo_give fun o => exec_config_rejected (s := s.observing o) hm he
    | none =>
      rw [exec_config, hm, he] at h
      cases h
      obtain ⟨rs, cs, hrun⟩ := s.callTransport_observing (.acquire n tg g hr)
      exact ⟨rs, cs, fun o => by rw [exec_config, show (s.observing o).mode = _ from hm, he, hrun]⟩
  · cases (exec_config_already hm).symm.trans h
    exact blindTo_give fun o => exec_config_already (s := s.observing o) hm

theorem blindTo_teardown (h : exec .teardown s = .next t) : blindTo (exec .teardown) s t := by
  rcases s.mode_cases with hm | hm
  · cases (exec_teardown_unconfigured hm).symm.trans h
    exact blindTo_give fun o => exec_teardown_unconfigured (s := s.observing o) hm
  · obtain ⟨rs, cs, hrun⟩ := blindTo_flush ((exec_teardown_ready hm).symm.trans h)
    exact ⟨rs, cs, fun o => (exec_teardown_ready (s := s.observing o) hm).trans (hrun o)⟩

theorem blindTo_clear (h : exec .clear s = .next t) : blindTo (exec .clear) s t := by
  rcases s.mode_cases with hm | hm
  · cases (exec_clear_unconfigured hm).symm.trans h
    exact blindTo_give fun o => exec_clear_unconfigured (s := s.observing o) hm
  · obtain ⟨rs, cs, hrun⟩ := blindTo_flush ((exec_clear_ready hm).symm.trans h)
    exact ⟨rs, cs, fun o => (exec_clear_ready (s := s.observing o) hm).trans (hrun o)⟩

/-- A wire frame puts its bytes and adds nothing to the observation. -/
theorem blindTo_put {f : List Byte} (h : ∀ o, k (s.observing o) = .next { s.observing o with frame := f }) :
    blindTo k s { s with frame := f } :=
  ⟨[], [], fun o => (h o).trans (by rw [Observed.add_nil]; rfl)⟩

theorem exec_blindTo {i : Instr} (h : exec i s = .next t) : blindTo (exec i) s t := by
  cases i with
  | config n tg g hr k => exact blindTo_config h
  | set idx r g b => exact blindTo_whenReady h blindTo_setPixel
  | setb idx r g b pct => exact blindTo_whenReady h blindTo_setPixel
  | setp idx c pct => exact blindTo_whenReady h blindTo_setPixel
  | get idx => exact blindTo_get h
  | rot pos => exact blindTo_rot h
  | setgb val => exact blindTo_setgb h
  | showFrame => exact blindTo_whenReady (k := (State.flush · .showFrame)) h blindTo_flush
  | clear => exact blindTo_clear h
  | teardown => exact blindTo_teardown h
  | startFrame | pixelFrame q x y z | resetFrame | endPadByte => cases h; exact blindTo_put fun o => rfl

/-- Settles O47: what an instruction adds to one observation it adds to every other. -/
theorem observationsAreNotRead : Obligations.ObservationsAreNotRead := by
  intro i s t o h
  obtain ⟨rs, cs, hrun⟩ := exec_blindTo h
  exact ⟨rs, cs, toObserved_of_blindTo hrun h, hrun o⟩

end Sys2Proof.Machine
end

section
/-! PROOFS. Wire frames one after the other (30_encoding.md R76 to R80; 43_frame_emit.md R134) and the order of the bits on
the wire (20_memory.md R42). -/

namespace Sys2Proof.Machine

variable {s t u : State}

/-! ## The bytes of each wire frame -/

/-- A pixel frame is its header and its three bytes (R77). -/
theorem wireBytes_pixelFrame (q : BitVec 5) (x y z : Byte) :
    wireBytes (encode (.pixelFrame q x y z)) = [headerOf q, x, y, z] := by
  change [field (7#3 ++ q ++ x ++ y ++ z) 24 8, field (7#3 ++ q ++ x ++ y ++ z) 16 8, field (7#3 ++ q ++ x ++ y ++ z) 8 8,
    field (7#3 ++ q ++ x ++ y ++ z) 0 8] = _
  simp (disch := decide) only [field_append_of_le, field_append_of_add_le, field_self, Nat.reduceSub, headerOf]

theorem exec_pixelFrame (q : BitVec 5) (x y z : Byte) (u : State) :
    exec (.pixelFrame q x y z) u = .next (u.putFrame [headerOf q, x, y, z]) :=
  congrArg (fun bs => Host.Outcome.next (u.putFrame bs)) (wireBytes_pixelFrame q x y z)

theorem exec_endPadByte (u : State) : exec .endPadByte u = .next (u.putFrame [0]) := rfl

/-- Settles O33: three frames are constant bytes, and a pixel frame is its header and its bytes. -/
theorem wireFramesPutTheirBytes : Obligations.WireFramesPutTheirBytes := by
  intro s q x y z
  refine ⟨rfl, ?_, rfl, rfl⟩
  rw [exec_pixelFrame, headerOf_eq_or]
  rfl

/-! ## Wire frames one after the other -/

@[simp] theorem State.putFrame_nil (u : State) : u.putFrame [] = u := by simp [State.putFrame]

@[simp] theorem State.putFrame_putFrame (u : State) (a b : List Byte) : (u.putFrame a).putFrame b =
    u.putFrame (a ++ b) := by
  simp [State.putFrame]

/-- A run that goes on after a run. -/
theorem runAll_append {is js : List Instr} (h : runAll is s = .next t) : runAll (is ++ js) s = runAll js t := by
  induction is generalizing s with
  | nil => cases h; rfl
  | cons i is ih =>
    rw [List.cons_append, runAll]
    rw [runAll] at h
    cases hi : exec i s with
    | next s' => rw [hi] at h; exact ih h
    | fault f => rw [hi] at h; cases h
    | refused r => rw [hi] at h; cases h

theorem runAll_cons_putFrame {i : Instr} {bs : List Byte} (h : exec i u = .next (u.putFrame bs)) (is : List Instr) :
    runAll (i :: is) u = runAll is (u.putFrame bs) := by
  rw [runAll, h]

/-- The pixel frames of bytes whose every fourth carries the marker put those bytes. -/
theorem runAll_pixelFrames (n : Nat) {px : List Byte} (hlen : px.length = 4 * n)
    (hmark : ∀ j < n, (px[4 * j]?).map (fun b => field b 5 3) = some 7) (u : State) :
    runAll (pixelFrames px) u = .next (u.putFrame px) := by
  induction n generalizing px u with
  | zero =>
    rw [List.length_eq_zero_iff.1 hlen, State.putFrame_nil]
    rfl
  | succ n ih =>
    obtain ⟨h, x, y, z, rest, rfl⟩ : ∃ h x y z rest, px = h :: x :: y :: z :: rest := by
      match px, hlen with
      | h :: x :: y :: z :: rest, _ => exact ⟨h, x, y, z, rest, rfl⟩
    have hh : field h 5 3 = 7 := Option.some_inj.1 (hmark 0 (by omega))
    have hrest := ih (px := rest) (by simp at hlen; omega) (fun j hj => hmark (j + 1) (by omega))
      (u.putFrame [headerOf (brightnessOf h), x, y, z])
    rw [pixelFrames, runAll_cons_putFrame (exec_pixelFrame ..), hrest, State.putFrame_putFrame, headerOf_brightnessOf hh]
    rfl

theorem runAll_endPadBytes (k : Nat) (u : State) :
    runAll (List.replicate k .endPadByte) u = .next (u.putFrame (List.replicate k 0)) := by
  induction k generalizing u with
  | zero => exact congrArg _ (State.putFrame_nil u).symm
  | succ k ih =>
    rw [List.replicate_succ, runAll_cons_putFrame (exec_endPadByte u), ih, State.putFrame_putFrame]
    rfl

theorem runAll_resetFrame (s u : State) :
    runAll (if s.hasreset = 1 then [.resetFrame] else []) u = .next (u.putFrame s.resetBytes) := by
  rw [State.resetBytes_eq]
  by_cases h : s.hasreset = 1
  · rw [if_pos h, if_pos h]; rfl
  · rw [if_neg h, if_neg h, State.putFrame_nil]; rfl

/-- Settles O34: the four parts of a transaction, put in their order. -/
theorem frameIsItsWireFramesInOrder : Obligations.FrameIsItsWireFramesInOrder := by
  rintro s u px f ⟨-, -, hc, -⟩ hm hpx hf
  obtain ⟨-, -, -, hheaders⟩ := hc hm
  obtain ⟨hlen, hread⟩ := hpx
  obtain ⟨px', hpx', rfl⟩ := State.buildFrame_eq_ok.1 hf
  obtain ⟨hlen', hread'⟩ := State.memRead_whole_eq_ok.1 hpx'
  have hsame : px' = px := by
    refine List.ext_getElem? fun j => ?_
    by_cases hj : j < 4 * s.numleds.toNat
    · rw [← hread j hj, ← hread' j hj]
    · rw [List.getElem?_eq_none (by omega), List.getElem?_eq_none (by omega)]
  have hpixels := runAll_pixelFrames s.numleds.toNat hlen (fun j hj => by rw [← hread _ (by omega)]; exact hheaders j hj)
    u.beginFrame
  have hreset := (runAll_append hpixels).trans (runAll_resetFrame s _)
  have hpad := (runAll_append hreset).trans (runAll_endPadBytes s.padLen _)
  rw [hsame, State.padBytes_eq]
  refine (show runAll (s.wireFrames px) u = _ from hpad).trans ?_
  simp only [State.putFrame_putFrame]
  rfl

/-! ## The bits on the wire -/

theorem byteBits_get (b : Byte) {k : Nat} (hk : k < 8) : (byteBits b)[k]? = some (b.getLsbD (7 - k)) := by
  unfold byteBits
  interval_cases k <;> rfl

/-- Settles O35, by induction on the bytes. -/
theorem wireBitsGoMsbFirst : Obligations.WireBitsGoMsbFirst := by
  intro f
  induction f with
  | nil => exact ⟨rfl, fun i hi => absurd hi (Nat.not_lt_zero i)⟩
  | cons b bs ih =>
    obtain ⟨hlen, hbits⟩ := ih
    have hb : (byteBits b).length = 8 := rfl
    refine ⟨by rw [wireBits, List.length_append, hb, hlen, List.length_cons]; omega, fun i hi k hk => ?_⟩
    rw [wireBits]
    cases i with
    | zero => rw [List.getElem?_append_left (by omega), Nat.mul_zero, Nat.zero_add, byteBits_get b hk]; rfl
    | succ i =>
      rw [List.getElem?_append_right (by omega), hb, show 8 * (i + 1) + k - 8 = 8 * i + k by omega,
        List.getElem?_cons_succ]
      exact hbits i (by simpa using hi) k hk

end Sys2Proof.Machine
end
